-- ==== Sys2Proof/Word.lean ====
section
/-! DEFINITION. The widths of the frame codec block: 00_scope.md rule R8, 10_state.md rules R21 and R22. Every value is
unsigned (rule R9), so a value is a bit vector of its width and arithmetic on it wraps. -/

namespace Sys2Proof

/-- A byte of IN, OUT, VER, ADR, CID1 or CID2 (20_memory.md R41, 00_scope.md R8). -/
abbrev Byte := BitVec 8

/-- The 16-bit values A, R, LENF and CHK (10_state.md R21, R22). -/
abbrev Word := BitVec 16

/-- A 4-bit value: a hex digit's value, the length checksum, OP (00_scope.md R8). -/
abbrev Nibble := BitVec 4

/-- The 12-bit info length LENID (30_encoding.md R74, 00_scope.md R6). -/
abbrev Length := BitVec 12

/-- A byte sequence; index 0 is the first byte on the wire (00_scope.md R10, 20_memory.md R42). -/
abbrev Bytes := List Byte

end Sys2Proof
end

