-- ==== Sys2Proof/Config.lean ====
section
/-! DEFINITION. The one open parameter of the block, N_IN_MAX (00_scope.md rule R7, 92_eei_decisions.md D22). -/

namespace Sys2Proof

/-- The legal values of N_IN_MAX (00_scope.md R7): an integer of at least 4113, written by its excess over 4113, or
"unbounded". No other value can be written. -/
inductive InLimit where
  /-- N_IN_MAX = 4113 + extra. -/
  | bytes (extra : Nat)
  | unbounded
  deriving DecidableEq, Repr, Inhabited

/-- `len(IN) ≤ N_IN_MAX` for `n = len(IN)` (60_exceptions.md R204). Every legal limit admits 4113 bytes (00_scope.md R7),
so a shorter IN is admitted before the limit is looked at. -/
def InLimit.admits (lim : InLimit) (n : Nat) : Bool :=
  decide (n ≤ 4113) ||
    match lim with
    | .bytes extra => decide (n ≤ 4113 + extra)
    | .unbounded => true

/-- N_IN_MAX of the block at hand, "fixed when the FCB is built" (70_reset_and_hazards.md R232). The spec leaves its value
open, so it has no body: no proof can see which legal value it is (assumption log 1). -/
opaque Config.nInMax : InLimit

end Sys2Proof
end

