-- ==== Sys2Proof/Syntax.lean ====
section
/-! DEFINITION. The request record (10_state.md R21), the instructions (spec/opcode_table.json, one constructor per row),
and the line of assembler text that writes a request (30_encoding.md R65). -/

namespace Sys2Proof

/-- The request record the host presents (10_state.md R21; format CMD, 30_encoding.md R60). -/
structure Request where
  op : Nibble
  a : Word
  inp : Bytes
  deriving DecidableEq, Repr

/-- The instructions: one constructor per row of spec/opcode_table.json (30_encoding.md R61, R62). Each carries every operand
field of its request, the unread ones too, so that a request and its instruction say the same. FRAME_ENC's A is split into
its two bytes (30_encoding.md R63). -/
inductive Instr where
  | frameCsum (a : Word) (inp : Bytes)
  | csumVfy (a : Word) (inp : Bytes)
  | lenEnc (a : Word) (inp : Bytes)
  | lenDec (a : Word) (inp : Bytes)
  | hexEnc (a : Word) (inp : Bytes)
  | hexDec (a : Word) (inp : Bytes)
  | frameEnc (adr cid2 : Byte) (inp : Bytes)
  | frameDec (a : Word) (inp : Bytes)
  | reserved0 (a : Word) (inp : Bytes)
  | reserved9 (a : Word) (inp : Bytes)
  | reservedA (a : Word) (inp : Bytes)
  | reservedB (a : Word) (inp : Bytes)
  | reservedC (a : Word) (inp : Bytes)
  | reservedD (a : Word) (inp : Bytes)
  | reservedE (a : Word) (inp : Bytes)
  | reservedF (a : Word) (inp : Bytes)
  deriving DecidableEq, Repr

/-- The sequence operand IN of an instruction. -/
def Instr.input : Instr → Bytes
  | .frameCsum _ inp => inp
  | .csumVfy _ inp => inp
  | .lenEnc _ inp => inp
  | .lenDec _ inp => inp
  | .hexEnc _ inp => inp
  | .hexDec _ inp => inp
  | .frameEnc _ _ inp => inp
  | .frameDec _ inp => inp
  | .reserved0 _ inp => inp
  | .reserved9 _ inp => inp
  | .reservedA _ inp => inp
  | .reservedB _ inp => inp
  | .reservedC _ inp => inp
  | .reservedD _ inp => inp
  | .reservedE _ inp => inp
  | .reservedF _ inp => inp

/-- Is the opcode one of the eight reserved ones (30_encoding.md R62)? -/
def Instr.isReserved : Instr → Bool
  | .frameCsum _ _ => false
  | .csumVfy _ _ => false
  | .lenEnc _ _ => false
  | .lenDec _ _ => false
  | .hexEnc _ _ => false
  | .hexDec _ _ => false
  | .frameEnc _ _ _ => false
  | .frameDec _ _ => false
  | .reserved0 _ _ => true
  | .reserved9 _ _ => true
  | .reservedA _ _ => true
  | .reservedB _ _ => true
  | .reservedC _ _ => true
  | .reservedD _ _ => true
  | .reservedE _ _ => true
  | .reservedF _ _ => true

/-- The eight operations by name (00_scope.md R5). -/
inductive Mnemonic where
  | frameCsum | csumVfy | lenEnc | lenDec | hexEnc | hexDec | frameEnc | frameDec
  deriving DecidableEq, Repr

/-- A written sequence: a quoted ASCII string with its escapes already read, or a bracketed byte list (30_encoding.md R65). -/
inductive AsmSeq where
  | quoted (chars : List Char)
  | listed (values : List Nat)
  deriving DecidableEq, Repr

/-- One line of assembler text, `MNEMONIC [A=<value>] [IN=<sequence>]` (30_encoding.md R65). The numbers are as written, so
they may be too wide: WellFormed.lean says which lines are requests. -/
structure AsmLine where
  mnemonic : Mnemonic
  a : Option Nat
  inp : Option AsmSeq
  deriving DecidableEq, Repr

end Sys2Proof
end

