-- ==== Sys2Proof/WellFormed.lean ====
section
/-! DEFINITION. Which instructions and which written requests the spec admits. -/

namespace Sys2Proof

/-- The instruction is one of the eight operations (00_scope.md R5) and its IN has a length of 0..N_IN_MAX (10_state.md R21).
The widths of OP, A and the bytes are in the types. A request outside this is answered with IllegalOp or InputOverflow
(60_exceptions.md R203, R204). -/
def Instr.wellFormed (lim : InLimit) (i : Instr) : Bool :=
  !i.isReserved && lim.admits i.input.length

/-- The values of a written sequence fit in what R65 says: ASCII characters in a string, bytes in a list. -/
def AsmSeq.wellFormed : AsmSeq → Bool
  | .quoted chars => chars.all fun c => decide (c.toNat < 0x80)
  | .listed values => values.all fun v => decide (v < 0x100)

/-- A written request: its A is "a hexadecimal number of at most 16 bits" and its sequence is one of bytes
(30_encoding.md R65; 40_checksum.md R111: "A = 0x10000 cannot be written, because A is 16 bits"). -/
def AsmLine.wellFormed (l : AsmLine) : Bool :=
  (match l.a with
   | none => true
   | some v => decide (v < 0x10000)) &&
  (match l.inp with
   | none => true
   | some q => q.wellFormed)

end Sys2Proof
end

