-- ==== Sys2Proof/Decode.lean ====
section
/-! DEFINITION. Decoding a request to its instruction and encoding an instruction as its request: 30_encoding.md R60 to R63.
A decoder tells the operation from OP alone (R60); every OP has a meaning, the reserved ones IllegalOp (R62). -/

namespace Sys2Proof

/-- The opcode map (30_encoding.md R61) with the operand fields (R63). -/
def decode (q : Request) : Instr :=
  match q.op with
  | 0x1#4 => .frameCsum q.a q.inp
  | 0x2#4 => .csumVfy q.a q.inp
  | 0x3#4 => .lenEnc q.a q.inp
  | 0x4#4 => .lenDec q.a q.inp
  | 0x5#4 => .hexEnc q.a q.inp
  | 0x6#4 => .hexDec q.a q.inp
  | 0x7#4 => .frameEnc (q.a.extractLsb' 0 8) (q.a.extractLsb' 8 8) q.inp
  | 0x8#4 => .frameDec q.a q.inp
  | 0x9#4 => .reserved9 q.a q.inp
  | 0xA#4 => .reservedA q.a q.inp
  | 0xB#4 => .reservedB q.a q.inp
  | 0xC#4 => .reservedC q.a q.inp
  | 0xD#4 => .reservedD q.a q.inp
  | 0xE#4 => .reservedE q.a q.inp
  | 0xF#4 => .reservedF q.a q.inp
  | _ => .reserved0 q.a q.inp

/-- The request that an instruction stands for, written from the same tables (30_encoding.md R61 to R63). -/
def encode : Instr → Request
  | .frameCsum a inp => ⟨0x1#4, a, inp⟩
  | .csumVfy a inp => ⟨0x2#4, a, inp⟩
  | .lenEnc a inp => ⟨0x3#4, a, inp⟩
  | .lenDec a inp => ⟨0x4#4, a, inp⟩
  | .hexEnc a inp => ⟨0x5#4, a, inp⟩
  | .hexDec a inp => ⟨0x6#4, a, inp⟩
  | .frameEnc adr cid2 inp => ⟨0x7#4, (cid2.setWidth 16 <<< 8) ||| adr.setWidth 16, inp⟩
  | .frameDec a inp => ⟨0x8#4, a, inp⟩
  | .reserved0 a inp => ⟨0x0#4, a, inp⟩
  | .reserved9 a inp => ⟨0x9#4, a, inp⟩
  | .reservedA a inp => ⟨0xA#4, a, inp⟩
  | .reservedB a inp => ⟨0xB#4, a, inp⟩
  | .reservedC a inp => ⟨0xC#4, a, inp⟩
  | .reservedD a inp => ⟨0xD#4, a, inp⟩
  | .reservedE a inp => ⟨0xE#4, a, inp⟩
  | .reservedF a inp => ⟨0xF#4, a, inp⟩

/-- Why a bare select code is no request. -/
inductive DecodeError where
  /-- It has fewer than the 4 bits of OP (30_encoding.md R60). Safe: no such request exists. -/
  | selectTooShort
  deriving DecidableEq, Repr

/-- The request whose select code is the `nbits` bits `w` and whose other fields are zero: OP is "bits 3:0 of the request's
select code" (30_encoding.md R60) and an omitted A or IN is 0 or empty (R65). Assumption log 6. -/
def requestOfSelect (nbits w : Nat) : Except DecodeError Request :=
  if nbits < 4 then .error .selectTooShort else .ok ⟨BitVec.ofNat 4 w, 0#16, []⟩

/-- The instruction the decoder reads from a word of spec/opcode_table.json. -/
def decodeTableWord (nbits w : Nat) : Option Instr :=
  match requestOfSelect nbits w with
  | .ok q => some (decode q)
  | .error _ => none

/-- A row of the opcode table: the low bits of the select code under `mask` equal `pattern`. -/
structure OpcodeRow where
  mask : Nibble
  pattern : Nibble
  deriving DecidableEq, Repr

/-- spec/opcode_table.json in its own order: match and mask of its sixteen rows. -/
def opcodeTable : List OpcodeRow :=
  [0x1#4, 0x2#4, 0x3#4, 0x4#4, 0x5#4, 0x6#4, 0x7#4, 0x8#4,
   0x0#4, 0x9#4, 0xA#4, 0xB#4, 0xC#4, 0xD#4, 0xE#4, 0xF#4].map (OpcodeRow.mk 0xF#4)

end Sys2Proof
end

