-- ==== Sys2Proof/Machine/State.lean ====
section
/-! DEFINITION. The state of the block: the request in flight, the response the host may read, and the build parameter
N_IN_MAX. The FCB holds no architectural state between requests (10_state.md R20, R27): none is invented here. -/

namespace Sys2Proof.Machine

/-- The decoded header record HDR (10_state.md R22; 42_frame.md R172). -/
structure Hdr where
  ver : Byte
  adr : Byte
  cid1 : Byte
  cid2 : Byte
  lenf : Word
  deriving DecidableEq, Repr

/-- The response fields an operation writes when it succeeds; one it does not write is absent (00_scope.md R11, R12). -/
structure Payload where
  r : Option Word := none
  out : Option Bytes := none
  hdr : Option Hdr := none
  deriving DecidableEq, Repr

/-- The response record (10_state.md R22). `none` is the spec's absent value ⊥ (00_scope.md R12). -/
structure Response where
  status : BitVec 3
  sub : BitVec 4
  r : Option Word
  out : Option Bytes
  hdr : Option Hdr
  deriving DecidableEq, Repr

/-- The state of one FCB and its request port.
* `nInMax`: N_IN_MAX, "fixed when the FCB is built" (70_reset_and_hazards.md R232); no operation writes it.
* `inFlight`: the request in flight, if one is (10_state.md R26, R21).
* `response`: the response of the last request, until another is presented (10_state.md R22, R27, R28). -/
structure State where
  nInMax : InLimit
  inFlight : Option Request
  response : Option Response
  deriving DecidableEq, Repr

/-- The fields of a response the host may read (10_state.md R22). -/
inductive ResponseField where
  | status | sub | r | out | hdr
  deriving DecidableEq, Repr

/-- What stops: the host, never the FCB (70_reset_and_hazards.md R237: every request is answered). -/
inductive Fault where
  /-- Raised by the host's reads of Machine/HostPort.lean: the field is absent, "a fault of the reader" (00_scope.md R12,
  70_reset_and_hazards.md R239). Safe. -/
  | absentField (f : ResponseField)
  /-- Raised by the host's `issue`: a request is in flight, so the host has no move (70_reset_and_hazards.md R233,
  93_implementation_defined.md I5). Unsafe for a host that breaks that duty, as rule R233 says. -/
  | hostHasNoMove
  deriving DecidableEq, Repr

/-- What the model gives no meaning. -/
inductive Refusal where
  /-- Raised by `exec` for an instruction without a meaning; no arm does. Safe. -/
  | notModelled (mnemonic : String)
  /-- Raised by `Err.ofCodes`, when a record holds a (STATUS, SUB) pair outside 30_encoding.md R81, which is "never produced"
  (93_implementation_defined.md I2). Safe. -/
  | unlistedStatus (status : BitVec 3) (sub : BitVec 4)
  deriving DecidableEq, Repr

/-- The three outcomes of a move of this machine. -/
abbrev Result := Host.Outcome State Fault Refusal

/-- Right after reset: no request is in flight and no response is pending (10_state.md R28, 70_reset_and_hazards.md R230).
N_IN_MAX is the open constant of Config (assumption log 1). -/
def State.reset : State := { nInMax := Config.nInMax, inFlight := none, response := none }

end Sys2Proof.Machine
end

