-- ==== Sys2Proof/Machine/Flags.lean ====
section
/-! DEFINITION. The status codes of a response: 30_encoding.md R80 and R81. The FCB has no flags (10_state.md R27); STATUS and
SUB are what it reports of an operation. -/

namespace Sys2Proof.Machine

/-- The causes of a FormatError (30_encoding.md R81). -/
inductive FormatCause where
  | noStart | noEnd | badHexChecksum | badHexHeader | lengthMismatch | oddLength | badHex
  deriving DecidableEq, Repr

/-- The causes of a ChecksumMismatch (30_encoding.md R81). -/
inductive ChecksumCause where
  | frame | length
  deriving DecidableEq, Repr

/-- The causes of an IncompleteFrame (30_encoding.md R81). -/
inductive IncompleteCause where
  | noChecksum | shortHeader
  deriving DecidableEq, Repr

/-- The causes of an EncodingError (30_encoding.md R81). -/
inductive EncodingCause where
  | tooLong | badInfoChar | oddInfo
  deriving DecidableEq, Repr

/-- The errors the FCB raises (60_exceptions.md R201); the two of the interface have no cause. -/
inductive Err where
  | formatError (c : FormatCause)
  | checksumMismatch (c : ChecksumCause)
  | incompleteFrame (c : IncompleteCause)
  | encodingError (c : EncodingCause)
  | illegalOp
  | inputOverflow
  deriving DecidableEq, Repr

/-- STATUS of an error (30_encoding.md R80). -/
def Err.status : Err → BitVec 3
  | .formatError _ => 1#3
  | .checksumMismatch _ => 2#3
  | .incompleteFrame _ => 3#3
  | .encodingError _ => 4#3
  | .illegalOp => 5#3
  | .inputOverflow => 6#3

/-- SUB of an error (30_encoding.md R81). -/
def Err.sub : Err → BitVec 4
  | .formatError .noStart => 1#4
  | .formatError .noEnd => 2#4
  | .formatError .badHexChecksum => 3#4
  | .formatError .badHexHeader => 4#4
  | .formatError .lengthMismatch => 5#4
  | .formatError .oddLength => 6#4
  | .formatError .badHex => 7#4
  | .checksumMismatch .frame => 1#4
  | .checksumMismatch .length => 2#4
  | .incompleteFrame .noChecksum => 1#4
  | .incompleteFrame .shortHeader => 2#4
  | .encodingError .tooLong => 1#4
  | .encodingError .badInfoChar => 2#4
  | .encodingError .oddInfo => 3#4
  | .illegalOp => 0#4
  | .inputOverflow => 0#4

/-- Every error of 30_encoding.md R81, in its order. -/
def Err.all : List Err :=
  [.formatError .noStart, .formatError .noEnd, .formatError .badHexChecksum, .formatError .badHexHeader,
   .formatError .lengthMismatch, .formatError .oddLength, .formatError .badHex,
   .checksumMismatch .frame, .checksumMismatch .length,
   .incompleteFrame .noChecksum, .incompleteFrame .shortHeader,
   .encodingError .tooLong, .encodingError .badInfoChar, .encodingError .oddInfo,
   .illegalOp, .inputOverflow]

/-- Reading a (STATUS, SUB) pair back: success, an error, or a pair the FCB never produces, which is refused
(30_encoding.md R80, R81; 93_implementation_defined.md I2). -/
def Err.ofCodes (status : BitVec 3) (sub : BitVec 4) : Except Refusal (Option Err) :=
  if status = 0#3 ∧ sub = 0#4 then .ok none
  else
    match Err.all.find? fun e => decide (e.status = status ∧ e.sub = sub) with
    | some e => .ok (some e)
    | none => .error (.unlistedStatus status sub)

end Sys2Proof.Machine
end

