-- ==== Sys2Proof/Machine/Operands.lean ====
section
/-! DEFINITION. Byte subsequences (00_scope.md R10), the ASCII hex digits and the fixed-width hex fields (30_encoding.md R66 to
R70, digit order 20_memory.md R43), and the frame's fixed characters and values (R71, R73). -/

namespace Sys2Proof.Machine

/-- `s[start..start+len-1]` (00_scope.md R10). -/
def seg (s : Bytes) (start len : Nat) : Bytes := (s.drop start).take len

/-- SOI, the start character (30_encoding.md R66, R71). -/
def soi : Byte := 0x7E#8

/-- EOI, the end character (30_encoding.md R66, R71). -/
def eoi : Byte := 0x0D#8

/-- VER of an encoded frame (30_encoding.md R73). -/
def verValue : Byte := 0x20#8

/-- CID1 of an encoded frame (30_encoding.md R73). -/
def cid1Value : Byte := 0x46#8

/-- L_MAX (00_scope.md R6). -/
def lMax : Nat := 4095

/-- The class of hex digits, both cases (30_encoding.md R67). -/
def isHex (c : Byte) : Bool :=
  decide ((0x30#8 ≤ c ∧ c ≤ 0x39#8) ∨ (0x41#8 ≤ c ∧ c ≤ 0x46#8) ∨ (0x61#8 ≤ c ∧ c ≤ 0x66#8))

/-- The value of a hex digit (30_encoding.md R68). It is "defined only when `isHex(c)`": elsewhere there is no value. -/
def hexval (c : Byte) : Option Nibble :=
  if 0x30#8 ≤ c ∧ c ≤ 0x39#8 then some ((c - 0x30#8).setWidth 4)
  else if 0x41#8 ≤ c ∧ c ≤ 0x46#8 then some ((c - 0x37#8).setWidth 4)
  else if 0x61#8 ≤ c ∧ c ≤ 0x66#8 then some ((c - 0x57#8).setWidth 4)
  else none

/-- The digit of a 4-bit value, upper case (30_encoding.md R69). -/
def hexchar (n : Nibble) : Byte :=
  if n ≤ 9#4 then 0x30#8 + n.setWidth 8 else 0x37#8 + n.setWidth 8

/-- A byte as two digits (30_encoding.md R70). -/
def hex2 (b : Byte) : Bytes := [hexchar (b.extractLsb' 4 4), hexchar (b.extractLsb' 0 4)]

/-- A 16-bit value as four digits (30_encoding.md R70). -/
def hex4 (w : Word) : Bytes :=
  [hexchar (w.extractLsb' 12 4), hexchar (w.extractLsb' 8 4), hexchar (w.extractLsb' 4 4), hexchar (w.extractLsb' 0 4)]

/-- Two digit values as a byte, the first one high (30_encoding.md R70, 20_memory.md R43). -/
def join2 (x y : Nibble) : Byte := (x.setWidth 8 <<< 4) ||| y.setWidth 8

/-- Four digit values as a 16-bit value, the first one high (30_encoding.md R70, 20_memory.md R43). -/
def join4 (x y z w : Nibble) : Word :=
  (x.setWidth 16 <<< 12) ||| (y.setWidth 16 <<< 8) ||| (z.setWidth 16 <<< 4) ||| w.setWidth 16

/-- The value of a two-digit field (30_encoding.md R70): none unless it is two hex digits. -/
def val2 : Bytes → Option Byte
  | [c, d] => do
    let x ← hexval c
    let y ← hexval d
    return join2 x y
  | _ => none

/-- The value of a four-digit field (30_encoding.md R70): none unless it is four hex digits. -/
def val4 : Bytes → Option Word
  | [c, d, e, f] => do
    let x ← hexval c
    let y ← hexval d
    let z ← hexval e
    let w ← hexval f
    return join4 x y z w
  | _ => none

end Sys2Proof.Machine
end

