-- ==== Sys2Proof/Machine/Ops.lean ====
section
/-! DEFINITION. The shared operations over State: presenting a request, ending an operation with success or with an error,
and the checks of the interface. -/

namespace Sys2Proof.Machine

/-- A request is put in flight; the earlier response does not survive it (10_state.md R21, R27; assumption log 2). The check
that no other request is in flight is the caller's: `State.issue` makes it (70_reset_and_hazards.md R233), `State.withFetchWord` does not
(assumption log 17). -/
def State.present (s : State) (q : Request) : State := { s with inFlight := some q, response := none }

/-- `return` (00_scope.md R11): the operation ends with STATUS = OK, SUB = 0 and the fields it wrote. -/
def State.succeed (s : State) (p : Payload) : State :=
  { s with inFlight := none, response := some ⟨0#3, 0#4, p.r, p.out, p.hdr⟩ }

/-- `raise E(sub)` (00_scope.md R11, 60_exceptions.md R200): the operation ends with STATUS and SUB and no other field. This is
the FCB's taking of an exception: it saves nothing, changes no mode and jumps nowhere (R208), and there is no return from it
(R209): the next request is served as any other. -/
def State.raise (s : State) (e : Err) : State :=
  { s with inFlight := none, response := some ⟨e.status, e.sub, none, none, none⟩ }

/-- An operation ends in exactly one of two ways (20_memory.md R48). -/
def State.deliver (s : State) (res : Except Err Payload) : Result :=
  match res with
  | .ok p => .next (s.succeed p)
  | .error e => .next (s.raise e)

/-- The check every non-reserved operation makes before its own (60_exceptions.md R204, R205). -/
def checkInput (lim : InLimit) (inp : Bytes) (res : Except Err Payload) : Except Err Payload :=
  if lim.admits inp.length then res else .error .inputOverflow

end Sys2Proof.Machine
end

