-- ==== Sys2Proof/Machine/Checksum.lean ====
section
/-! DEFINITION. The checksum units (40_checksum.md): the arithmetic of its part 1, and the meanings of FRAME_CSUM, CSUM_VFY,
LEN_ENC and LEN_DEC. -/

namespace Sys2Proof.Machine

/-- `Σ s`, the unbounded sum of a byte sequence (00_scope.md R10). -/
def byteSum (s : Bytes) : Nat := (s.map BitVec.toNat).sum

/-- The byte sum (40_checksum.md R100). -/
def sum16 (s : Bytes) : Word := BitVec.ofNat 16 (byteSum s % 0x10000)

/-- The 16-bit negation, by the source's formula (40_checksum.md R101). -/
def neg16 (x : Word) : Word := BitVec.ofNat 16 ((0x10000 - 1 - x.toNat + 1) % 0x10000)

/-- The frame checksum (40_checksum.md R102). -/
def chk16 (s : Bytes) : Word := neg16 (sum16 s)

/-- The nibble sum of a length (40_checksum.md R104). -/
def nsum (l : Length) : Nat := (l.extractLsb' 0 4).toNat + (l.extractLsb' 4 4).toNat + (l.extractLsb' 8 4).toNat

/-- The length checksum nibble, by the source's formula (40_checksum.md R105). -/
def lchk (l : Length) : Nibble := BitVec.ofNat 4 ((15 - nsum l % 16 + 1) % 16)

/-- The length field `(lchk(L) << 12) | L` (40_checksum.md R106). -/
def lenfield (l : Length) : Word := ((lchk l).setWidth 16 <<< 12) ||| l.setWidth 16

/-- LENID, bits 11:0 of a length field (30_encoding.md R74). -/
def lenid (f : Word) : Length := f.extractLsb' 0 12

/-- LCHKSUM, bits 15:12 of a length field (30_encoding.md R74). -/
def lchksum (f : Word) : Nibble := f.extractLsb' 12 4

/-- FRAME_CSUM's loop: a 16-bit accumulator that wraps after each byte (40_checksum.md R110). -/
def runningSum (s : Bytes) : Word := s.foldl (fun acc b => acc + b.setWidth 16) 0#16

/-- FRAME_CSUM's result (40_checksum.md R110). -/
def frameCsumResult (inp : Bytes) : Except Err Payload := .ok { r := some (neg16 (runningSum inp)) }

/-- CSUM_VFY's result (40_checksum.md R111). -/
def csumVfyResult (a : Word) (inp : Bytes) : Except Err Payload :=
  if ((sum16 inp).toNat + a.toNat) % 0x10000 ≠ 0 then .error (.checksumMismatch .frame) else .ok {}

/-- LEN_ENC's result (40_checksum.md R112). -/
def lenEncResult (a : Word) : Except Err Payload :=
  if a > 0x0FFF#16 then .error (.encodingError .tooLong) else .ok { r := some (lenfield (a.extractLsb' 0 12)) }

/-- LEN_DEC's result (40_checksum.md R113). -/
def lenDecResult (a : Word) : Except Err Payload :=
  if lchksum a ≠ lchk (lenid a) then .error (.checksumMismatch .length) else .ok { r := some ((lenid a).setWidth 16) }

/-- FRAME_CSUM (40_checksum.md R110). A is not read. -/
def execFrameCsum (_a : Word) (inp : Bytes) (s : State) : Result :=
  s.deliver (checkInput s.nInMax inp (frameCsumResult inp))

/-- CSUM_VFY (40_checksum.md R111). -/
def execCsumVfy (a : Word) (inp : Bytes) (s : State) : Result :=
  s.deliver (checkInput s.nInMax inp (csumVfyResult a inp))

/-- LEN_ENC (40_checksum.md R112). IN is not read, but its length is checked (60_exceptions.md R204). -/
def execLenEnc (a : Word) (inp : Bytes) (s : State) : Result :=
  s.deliver (checkInput s.nInMax inp (lenEncResult a))

/-- LEN_DEC (40_checksum.md R113). IN is not read, but its length is checked (60_exceptions.md R204). -/
def execLenDec (a : Word) (inp : Bytes) (s : State) : Result :=
  s.deliver (checkInput s.nInMax inp (lenDecResult a))

end Sys2Proof.Machine
end

