-- ==== Sys2Proof/Machine/HexCodec.lean ====
section
/-! DEFINITION. The ASCII-hex codec (41_hex_codec.md): hexenc, hexdec, and the meanings of HEX_ENC and HEX_DEC. -/

namespace Sys2Proof.Machine

/-- hexenc (41_hex_codec.md R140). -/
def hexenc (b : Bytes) : Bytes := b.flatMap hex2

/-- The bytes of a sequence of digit pairs: none if the length is odd or a byte is no hex digit (41_hex_codec.md R142). -/
def hexPairs : Bytes → Option Bytes
  | [] => some []
  | [_] => none
  | c :: d :: rest => do
    let b ← val2 [c, d]
    let bs ← hexPairs rest
    return b :: bs

/-- hexdec (41_hex_codec.md R142): the length is checked before the characters. -/
def hexdec (s : Bytes) : Except Err Bytes :=
  if s.length % 2 ≠ 0 then .error (.formatError .oddLength)
  else
    match hexPairs s with
    | none => .error (.formatError .badHex)
    | some b => .ok b

/-- HEX_ENC's result (41_hex_codec.md R141). -/
def hexEncResult (inp : Bytes) : Except Err Payload := .ok { out := some (hexenc inp) }

/-- HEX_DEC's result (41_hex_codec.md R143). -/
def hexDecResult (inp : Bytes) : Except Err Payload :=
  match hexdec inp with
  | .error e => .error e
  | .ok b => .ok { out := some b }

/-- HEX_ENC (41_hex_codec.md R141). A is not read. -/
def execHexEnc (_a : Word) (inp : Bytes) (s : State) : Result :=
  s.deliver (checkInput s.nInMax inp (hexEncResult inp))

/-- HEX_DEC (41_hex_codec.md R143). A is not read. -/
def execHexDec (_a : Word) (inp : Bytes) (s : State) : Result :=
  s.deliver (checkInput s.nInMax inp (hexDecResult inp))

end Sys2Proof.Machine
end

