-- ==== Sys2Proof/Machine/Frame.lean ====
section
/-! DEFINITION. The frame serializer and the frame deserializer/validator (42_frame.md; layout 30_encoding.md R72): the
meanings of FRAME_ENC and FRAME_DEC. -/

namespace Sys2Proof.Machine

/-- The data of a frame: the 12 header characters and the info characters (42_frame.md R160). -/
def frameData (adr cmd : Byte) (t : Bytes) : Bytes :=
  hex2 verValue ++ hex2 adr ++ hex2 cid1Value ++ hex2 cmd ++ hex4 (lenfield (BitVec.ofNat 12 t.length)) ++ t

/-- Data between its delimiters, with its checksum (42_frame.md R160; 30_encoding.md R72, R76). -/
def wrapFrame (data : Bytes) : Bytes := soi :: data ++ hex4 (chk16 data) ++ [eoi]

/-- buildFrame (42_frame.md R160), for `len(t) ≤ 4095`; FRAME_ENC calls it for no longer text (assumption log 13). -/
def buildFrame (adr cmd : Byte) (t : Bytes) : Bytes := wrapFrame (frameData adr cmd t)

/-- FRAME_ENC's result: the three checks in their order, then the frame (42_frame.md R161). -/
def frameEncResult (adr cid2 : Byte) (inp : Bytes) : Except Err Payload :=
  if inp.length > lMax then .error (.encodingError .tooLong)
  else if ¬ inp.all isHex then .error (.encodingError .badInfoChar)
  else if inp.length % 2 ≠ 0 then .error (.encodingError .oddInfo)
  else .ok { out := some (buildFrame adr cid2 inp) }

/-- The five header fields of twelve header characters; none if one is no hex digit (42_frame.md R170 step 7, R172). -/
def headerOf (h : Bytes) : Option Hdr := do
  let ver ← val2 (seg h 0 2)
  let adr ← val2 (seg h 2 2)
  let cid1 ← val2 (seg h 4 2)
  let cid2 ← val2 (seg h 6 2)
  let lenf ← val4 (seg h 8 4)
  return ⟨ver, adr, cid1, cid2, lenf⟩

/-- Steps 6 to 11 of FRAME_DEC, on the frame's data (42_frame.md R170, R171). -/
def dataDecResult (data : Bytes) : Except Err Payload :=
  if data.length < 12 then .error (.incompleteFrame .shortHeader)                              -- step 6
  else
    match headerOf (seg data 0 12) with
    | none => .error (.formatError .badHexHeader)                                              -- step 7
    | some h =>
      let t := seg data 12 (data.length - 12)
      if lchksum h.lenf ≠ lchk (lenid h.lenf) then .error (.checksumMismatch .length)          -- step 8
      else if t.length ≠ (lenid h.lenf).toNat then .error (.formatError .lengthMismatch)       -- step 9
      else
        match hexdec t with
        | .error e => .error e                                                                 -- steps 10 and 11
        | .ok b => .ok { out := some b, hdr := some h }

/-- FRAME_DEC's result: the eleven checks in their order, the first that fails decides (42_frame.md R170, R171). -/
def frameDecResult (inp : Bytes) : Except Err Payload :=
  let n := inp.length
  if n = 0 ∨ inp[0]? ≠ some soi then .error (.formatError .noStart)                            -- step 1
  else if n < 2 ∨ inp[n - 1]? ≠ some eoi then .error (.formatError .noEnd)                     -- step 2
  else
    let m := n - 2
    let body := seg inp 1 m
    if m < 4 then .error (.incompleteFrame .noChecksum)                                        -- step 3
    else
      match val4 (seg body (m - 4) 4) with
      | none => .error (.formatError .badHexChecksum)                                          -- step 4
      | some ck =>
        let data := seg body 0 (m - 4)
        if chk16 data ≠ ck then .error (.checksumMismatch .frame)                              -- step 5
        else dataDecResult data

/-- FRAME_ENC (42_frame.md R161): ADR is A[7:0], CID2 is A[15:8]. -/
def execFrameEnc (adr cid2 : Byte) (inp : Bytes) (s : State) : Result :=
  s.deliver (checkInput s.nInMax inp (frameEncResult adr cid2 inp))

/-- FRAME_DEC (42_frame.md R170). A is not read. -/
def execFrameDec (_a : Word) (inp : Bytes) (s : State) : Result :=
  s.deliver (checkInput s.nInMax inp (frameDecResult inp))

end Sys2Proof.Machine
end

