-- ==== Sys2Proof/Machine/Reserved.lean ====
section
/-! DEFINITION. The reserved opcodes 0x0 and 0x9 to 0xF (30_encoding.md R62): IllegalOp, "whatever A and IN hold, including an
IN longer than N_IN_MAX" (60_exceptions.md R203). No operand is read, so the length of IN is not checked. -/

namespace Sys2Proof.Machine

/-- The reserved opcode 0x0 (30_encoding.md R62, 60_exceptions.md R203). -/
def execReserved0 (_a : Word) (_inp : Bytes) (s : State) : Result := s.deliver (.error .illegalOp)

/-- The reserved opcode 0x9 (30_encoding.md R62, 60_exceptions.md R203). -/
def execReserved9 (_a : Word) (_inp : Bytes) (s : State) : Result := s.deliver (.error .illegalOp)

/-- The reserved opcode 0xA (30_encoding.md R62, 60_exceptions.md R203). -/
def execReservedA (_a : Word) (_inp : Bytes) (s : State) : Result := s.deliver (.error .illegalOp)

/-- The reserved opcode 0xB (30_encoding.md R62, 60_exceptions.md R203). -/
def execReservedB (_a : Word) (_inp : Bytes) (s : State) : Result := s.deliver (.error .illegalOp)

/-- The reserved opcode 0xC (30_encoding.md R62, 60_exceptions.md R203). -/
def execReservedC (_a : Word) (_inp : Bytes) (s : State) : Result := s.deliver (.error .illegalOp)

/-- The reserved opcode 0xD (30_encoding.md R62, 60_exceptions.md R203). -/
def execReservedD (_a : Word) (_inp : Bytes) (s : State) : Result := s.deliver (.error .illegalOp)

/-- The reserved opcode 0xE (30_encoding.md R62, 60_exceptions.md R203). -/
def execReservedE (_a : Word) (_inp : Bytes) (s : State) : Result := s.deliver (.error .illegalOp)

/-- The reserved opcode 0xF (30_encoding.md R62, 60_exceptions.md R203). -/
def execReservedF (_a : Word) (_inp : Bytes) (s : State) : Result := s.deliver (.error .illegalOp)

end Sys2Proof.Machine
end

