-- ==== Sys2Proof/Machine/Dispatch.lean ====
section
/-! DEFINITION. Dispatch: one arm per constructor of Instr, each one direct call of that instruction's meaning. -/

namespace Sys2Proof.Machine

def exec (i : Instr) (s : State) : Host.Outcome State Fault Refusal :=
  match i with
  | .frameCsum a inp => Sys2Proof.Machine.execFrameCsum a inp s
  | .csumVfy a inp => Sys2Proof.Machine.execCsumVfy a inp s
  | .lenEnc a inp => Sys2Proof.Machine.execLenEnc a inp s
  | .lenDec a inp => Sys2Proof.Machine.execLenDec a inp s
  | .hexEnc a inp => Sys2Proof.Machine.execHexEnc a inp s
  | .hexDec a inp => Sys2Proof.Machine.execHexDec a inp s
  | .frameEnc adr cid2 inp => Sys2Proof.Machine.execFrameEnc adr cid2 inp s
  | .frameDec a inp => Sys2Proof.Machine.execFrameDec a inp s
  | .reserved0 a inp => Sys2Proof.Machine.execReserved0 a inp s
  | .reserved9 a inp => Sys2Proof.Machine.execReserved9 a inp s
  | .reservedA a inp => Sys2Proof.Machine.execReservedA a inp s
  | .reservedB a inp => Sys2Proof.Machine.execReservedB a inp s
  | .reservedC a inp => Sys2Proof.Machine.execReservedC a inp s
  | .reservedD a inp => Sys2Proof.Machine.execReservedD a inp s
  | .reservedE a inp => Sys2Proof.Machine.execReservedE a inp s
  | .reservedF a inp => Sys2Proof.Machine.execReservedF a inp s

end Sys2Proof.Machine
end

