-- ==== Sys2Proof/Machine/Step.lean ====
section
/-! DEFINITION. One step of the machine: the FCB's move. -/

namespace Sys2Proof.Machine

/-- The FCB's move: a request in flight is decoded and run to its response in one atomic step (00_scope.md R4, 20_memory.md
R48). With none in flight the FCB is idle and does nothing (60_exceptions.md R217, 70_reset_and_hazards.md R239; assumption
log 3). There is no program counter and no fetch (10_state.md R27, 20_memory.md R52). -/
def step (s : State) : Host.Outcome State Fault Refusal :=
  match s.inFlight with
  | none => .next s
  | some q => exec (decode q) s

/-- The host presents the request of a table word, so that the next step runs it (assumption log 7): the FCB fetches nothing,
"Its operations arrive as requests" (20_memory.md R52). A word too short to hold OP presents nothing (assumption log 6).

DESIGN CHOICE, unsafe (assumption log 17): unlike the host's move `State.issue` it has no check for a request in flight, so on a
busy state the table word silently takes the place of that request, which is lost without a response. The spec leaves undefined
what the FCB does there (70_reset_and_hazards.md R233); only on an idle state does this stand for a move of the host. -/
def State.withFetchWord (s : State) (nbits w : Nat) : State :=
  match requestOfSelect nbits w with
  | .ok q => s.present q
  | .error _ => s

end Sys2Proof.Machine
end

