-- ==== Sys2Proof/Machine/Asm.lean ====
section
/-! DEFINITION. The assembler syntax of a request, `MNEMONIC [A=<value>] [IN=<sequence>]`, and the notation of an encoded request
(30_encoding.md R65). Text is a list of characters. Assumption log 9 says which spellings are read. -/

namespace Sys2Proof.Machine

/-- OP of an operation (30_encoding.md R61). -/
def mnemonicOp : Mnemonic → Nibble
  | .frameCsum => 0x1#4
  | .csumVfy => 0x2#4
  | .lenEnc => 0x3#4
  | .lenDec => 0x4#4
  | .hexEnc => 0x5#4
  | .hexDec => 0x6#4
  | .frameEnc => 0x7#4
  | .frameDec => 0x8#4

/-- The name of an operation in assembler text (30_encoding.md R61). -/
def mnemonicName : Mnemonic → List Char
  | .frameCsum => "FRAME_CSUM".toList
  | .csumVfy => "CSUM_VFY".toList
  | .lenEnc => "LEN_ENC".toList
  | .lenDec => "LEN_DEC".toList
  | .hexEnc => "HEX_ENC".toList
  | .hexDec => "HEX_DEC".toList
  | .frameEnc => "FRAME_ENC".toList
  | .frameDec => "FRAME_DEC".toList

/-- The bytes of a written sequence: the ASCII codes of a string, the values of a list (30_encoding.md R65). -/
def asmBytes : AsmSeq → Bytes
  | .quoted chars => chars.map fun c => BitVec.ofNat 8 c.toNat
  | .listed values => values.map (BitVec.ofNat 8)

/-- The request a line writes, if the line is well formed: "An omitted A means A = 0x0000. An omitted IN means the empty
sequence." (30_encoding.md R65). -/
def assemble (l : AsmLine) : Option Request :=
  if l.wellFormed then
    some ⟨mnemonicOp l.mnemonic, BitVec.ofNat 16 (l.a.getD 0), (l.inp.map asmBytes).getD []⟩
  else none

/-- The text after any spaces at its front. -/
def skipSpaces : List Char → List Char
  | ' ' :: rest => skipSpaces rest
  | rest => rest

/-- The text after a given front, if it has it. -/
def dropFront : List Char → List Char → Option (List Char)
  | [], text => some text
  | p :: ps, c :: rest => if p = c then dropFront ps rest else none
  | _ :: _, [] => none

/-- The value of a hex digit character, either case (30_encoding.md R67, R68). -/
def charHexval (c : Char) : Option Nibble :=
  if c.toNat < 0x100 then hexval (BitVec.ofNat 8 c.toNat) else none

/-- The hex digits at the front of a text, onto a value already read. -/
def readHexDigits (acc : Nat) : List Char → Nat × List Char
  | [] => (acc, [])
  | c :: rest =>
    match charHexval c with
    | some d => readHexDigits (16 * acc + d.toNat) rest
    | none => (acc, c :: rest)

/-- A `0x..` number with at least one digit (30_encoding.md R65). -/
def readNumber : List Char → Option (Nat × List Char)
  | '0' :: 'x' :: c :: rest => (charHexval c).map fun d => readHexDigits d.toNat rest
  | _ => none

/-- The characters of a quoted string up to its closing quote; a backslash stands before `r` (CR) or a backslash only
(30_encoding.md R65). -/
def readQuoted : List Char → Option (List Char × List Char)
  | [] => none
  | '"' :: rest => some ([], rest)
  | '\\' :: 'r' :: rest => (readQuoted rest).map fun x => ('\r' :: x.1, x.2)
  | '\\' :: '\\' :: rest => (readQuoted rest).map fun x => ('\\' :: x.1, x.2)
  | '\\' :: _ => none
  | c :: rest => (readQuoted rest).map fun x => (c :: x.1, x.2)

/-- The values of a bracketed list after its bracket, up to the closing one; `fuel` bounds their count. -/
def readListed : Nat → List Char → Option (List Nat × List Char)
  | 0, _ => none
  | fuel + 1, text =>
    match readNumber (skipSpaces text) with
    | none => none
    | some (v, rest) =>
      match skipSpaces rest with
      | ']' :: rest => some ([v], rest)
      | ',' :: rest => (readListed fuel rest).map fun x => (v :: x.1, x.2)
      | _ => none

/-- A written sequence: a string, a list, or `[]` (30_encoding.md R65). -/
def readSeq : List Char → Option (AsmSeq × List Char)
  | '"' :: rest => (readQuoted rest).map fun x => (.quoted x.1, x.2)
  | '[' :: rest =>
    match skipSpaces rest with
    | ']' :: rest => some (.listed [], rest)
    | rest => (readListed rest.length rest).map fun x => (.listed x.1, x.2)
  | _ => none

/-- The operation whose name stands at the front of a text. -/
def readMnemonic (text : List Char) : Option (Mnemonic × List Char) :=
  [Mnemonic.frameCsum, .csumVfy, .lenEnc, .lenDec, .hexEnc, .hexDec, .frameEnc, .frameDec].findSome? fun m =>
    (dropFront (mnemonicName m) text).map fun rest => (m, rest)

/-- The optional ` IN=<sequence>` and the end of the line. -/
def readInput (m : Mnemonic) (a : Option Nat) (text : List Char) : Option AsmLine :=
  match skipSpaces text with
  | [] => some ⟨m, a, none⟩
  | rest =>
    match dropFront " ".toList text, dropFront "IN=".toList rest with
    | some _, some rest =>
      match readSeq rest with
      | some (q, rest) => if skipSpaces rest = [] then some ⟨m, a, some q⟩ else none
      | none => none
    | _, _ => none

/-- A line of assembler text, `MNEMONIC [A=<value>] [IN=<sequence>]` (30_encoding.md R65). -/
def readLine (text : List Char) : Option AsmLine :=
  match readMnemonic (skipSpaces text) with
  | none => none
  | some (m, rest) =>
    match dropFront " ".toList rest, dropFront "A=".toList (skipSpaces rest) with
    | some _, some value =>
      match readNumber value with
      | some (v, rest) => readInput m (some v) rest
      | none => none
    | _, _ => readInput m none rest

/-- The request a line of text writes. -/
def assembleText (text : List Char) : Option Request := (readLine text).bind assemble

/-- A byte as a character. -/
def charOf (b : Byte) : Char := Char.ofNat b.toNat

/-- The notation of an encoded request (30_encoding.md R65): OP, A and the length of IN between braces. -/
def encodedText (q : Request) : List Char :=
  Char.ofNat 0x7B :: "OP=0x".toList ++ [charOf (hexchar q.op)] ++ ", A=0x".toList ++ (hex4 q.a).map charOf
    ++ ", IN=".toList ++ Nat.toDigits 10 q.inp.length ++ " bytes".toList ++ [Char.ofNat 0x7D]

end Sys2Proof.Machine
end

