-- ==== Sys2Proof/Machine/HostPort.lean ====
section
/-! DEFINITION. The host's moves (70_reset_and_hazards.md R239): issuing a request, asserting reset, reading a response field;
and a program, "a sequence of requests the host issues one at a time" (95_test_vectors.md section 3). -/

namespace Sys2Proof.Machine

/-- The host issues a request. While another is in flight it has no move (70_reset_and_hazards.md R233). -/
def State.issue (s : State) (q : Request) : Result :=
  match s.inFlight with
  | none => .next (s.present q)
  | some _ => .fault .hostHasNoMove

/-- The host asserts reset: a request in flight is abandoned with no response (70_reset_and_hazards.md R231) and no response is
pending (10_state.md R28). N_IN_MAX is fixed when the FCB is built (R232). -/
def State.assertReset (s : State) : State := { State.reset with nInMax := s.nInMax }

/-- Reading STATUS: present in every response (10_state.md R22), absent while there is none (R28). -/
def State.readStatus (s : State) : Except Fault (BitVec 3) :=
  match s.response with
  | some p => .ok p.status
  | none => .error (.absentField .status)

/-- Reading SUB: present in every response (10_state.md R22), absent while there is none (R28). -/
def State.readSub (s : State) : Except Fault (BitVec 4) :=
  match s.response with
  | some p => .ok p.sub
  | none => .error (.absentField .sub)

/-- Reading R: a fault of the reader when absent (00_scope.md R12). -/
def State.readR (s : State) : Except Fault Word :=
  match s.response.bind Response.r with
  | some v => .ok v
  | none => .error (.absentField .r)

/-- Reading OUT: a fault of the reader when absent (00_scope.md R12). -/
def State.readOut (s : State) : Except Fault Bytes :=
  match s.response.bind Response.out with
  | some v => .ok v
  | none => .error (.absentField .out)

/-- Reading HDR: a fault of the reader when absent (00_scope.md R12). -/
def State.readHdr (s : State) : Except Fault Hdr :=
  match s.response.bind Response.hdr with
  | some v => .ok v
  | none => .error (.absentField .hdr)

/-- One transaction: the host issues a request and the FCB answers it in one step (00_scope.md R4, 70_reset_and_hazards.md
R237). -/
def State.transact (s : State) (q : Request) : Result :=
  match s.issue q with
  | .next t => step t
  | .fault f => .fault f
  | .refused r => .refused r

/-- A program of requests, one at a time (20_memory.md R50): the responses in order and the state after the last. -/
def serve : List Request → State → Host.Outcome (List Response × State) Fault Refusal
  | [], s => .next ([], s)
  | q :: qs, s =>
    match s.transact q with
    | .fault f => .fault f
    | .refused r => .refused r
    | .next t =>
      match t.response with
      | none => .fault (.absentField .status)
      | some p =>
        match serve qs t with
        | .fault f => .fault f
        | .refused r => .refused r
        | .next (ps, u) => .next (p :: ps, u)

/-- The response to a request by a block with that N_IN_MAX, started idle: "the response to a request depends only on that
request's OP, A and IN fields, and on the parameter N_IN_MAX" (10_state.md R20). -/
def answer (lim : InLimit) (q : Request) : Option Response :=
  match exec (decode q) ⟨lim, some q, none⟩ with
  | .next t => t.response
  | .fault _ => none
  | .refused _ => none

/-- The commands the source lists (30_encoding.md R78): "context for writing requests", read by no rule of the FCB (assumption
log 15). DESIGN CHOICE (assumption log 18): the table's last row, "0x42 or 0x93" for "get values (single module, or scan probe)",
does not say which code is which. The model makes two commands of it, the single module with 0x42 and the scan probe with 0x93,
and names the second after the 0x93 row, "module serial number". -/
inductive Command where
  | protocolVersion | manufacturerInfo | systemParameters | managementInfo | moduleSerialNumber
  | getValuesAllModules
  | getValuesSingleModule (module : Byte)
  | serialNumberScanProbe (module : Byte)
  deriving DecidableEq, Repr

/-- CID2 of a command (30_encoding.md R78). Which code the last row's two commands have is DESIGN CHOICE (assumption log 18). -/
def Command.cid2 : Command → Byte
  | .protocolVersion => 0x4F#8
  | .manufacturerInfo => 0x51#8
  | .systemParameters => 0x47#8
  | .managementInfo => 0x92#8
  | .moduleSerialNumber => 0x93#8
  | .getValuesAllModules => 0x42#8
  | .getValuesSingleModule _ => 0x42#8
  | .serialNumberScanProbe _ => 0x93#8

/-- The request info the source states for a command; none where it states none (30_encoding.md R78, R79). The digits of a device
address are written as `hex2` writes them, upper case: DESIGN CHOICE (assumption log 18). -/
def Command.statedInfo : Command → Option Bytes
  | .protocolVersion => none
  | .manufacturerInfo => none
  | .systemParameters => none
  | .managementInfo => none
  | .moduleSerialNumber => none
  | .getValuesAllModules => some [0x46#8, 0x46#8]
  | .getValuesSingleModule m => some (hex2 m)
  | .serialNumberScanProbe m => some (hex2 m)

/-- The FRAME_ENC request for a command: the stated info, or, where the source states none, the info the host gives. -/
def Command.request (c : Command) (adr : Byte) (hostInfo : Bytes) : Request :=
  encode (.frameEnc adr c.cid2 (c.statedInfo.getD hostInfo))

end Sys2Proof.Machine
end

