-- ==== Sys2Proof/Safety.lean ====
section
/-! DEFINITION. What a legal state is: what the host may rely on of a response it reads. -/

namespace Sys2Proof.Machine

/-- The state in which a request has been answered with `p`: nothing is in flight and all else is as before. -/
def State.answered (s : State) (p : Response) : State := { s with inFlight := none, response := some p }

/-- A success response with the given fields (00_scope.md R11). -/
def okResponse (r : Option Word) (out : Option Bytes) (hdr : Option Hdr) : Response := ⟨0#3, 0#4, r, out, hdr⟩

/-- An error response: STATUS and SUB only (60_exceptions.md R202). -/
def errResponse (status : BitVec 3) (sub : BitVec 4) : Response := ⟨status, sub, none, none, none⟩

/-- The errors an operation may raise, interface errors included (60_exceptions.md R201). -/
def instrErrors : Instr → List Err
  | .frameCsum _ _ => [.inputOverflow]
  | .csumVfy _ _ => [.inputOverflow, .checksumMismatch .frame]
  | .lenEnc _ _ => [.inputOverflow, .encodingError .tooLong]
  | .lenDec _ _ => [.inputOverflow, .checksumMismatch .length]
  | .hexEnc _ _ => [.inputOverflow]
  | .hexDec _ _ => [.inputOverflow, .formatError .oddLength, .formatError .badHex]
  | .frameEnc _ _ _ =>
    [.inputOverflow, .encodingError .tooLong, .encodingError .badInfoChar, .encodingError .oddInfo]
  | .frameDec _ _ =>
    [.inputOverflow, .formatError .noStart, .formatError .noEnd, .incompleteFrame .noChecksum,
     .formatError .badHexChecksum, .checksumMismatch .frame, .incompleteFrame .shortHeader,
     .formatError .badHexHeader, .checksumMismatch .length, .formatError .lengthMismatch,
     .formatError .oddLength, .formatError .badHex]
  | .reserved0 _ _ => [.illegalOp]
  | .reserved9 _ _ => [.illegalOp]
  | .reservedA _ _ => [.illegalOp]
  | .reservedB _ _ => [.illegalOp]
  | .reservedC _ _ => [.illegalOp]
  | .reservedD _ _ => [.illegalOp]
  | .reservedE _ _ => [.illegalOp]
  | .reservedF _ _ => [.illegalOp]

/-- Does the operation write R, OUT, HDR when it succeeds (10_state.md R23)? -/
def instrWrites : Instr → Bool × Bool × Bool
  | .frameCsum _ _ => (true, false, false)
  | .csumVfy _ _ => (false, false, false)
  | .lenEnc _ _ => (true, false, false)
  | .lenDec _ _ => (true, false, false)
  | .hexEnc _ _ => (false, true, false)
  | .hexDec _ _ => (false, true, false)
  | .frameEnc _ _ _ => (false, true, false)
  | .frameDec _ _ => (false, true, true)
  | .reserved0 _ _ => (false, false, false)
  | .reserved9 _ _ => (false, false, false)
  | .reservedA _ _ => (false, false, false)
  | .reservedB _ _ => (false, false, false)
  | .reservedC _ _ => (false, false, false)
  | .reservedD _ _ => (false, false, false)
  | .reservedE _ _ => (false, false, false)
  | .reservedF _ _ => (false, false, false)

/-- The (STATUS, SUB) pair is in the table of 30_encoding.md R81. -/
def Response.listed (p : Response) : Prop :=
  (p.status = 0#3 ∧ p.sub = 0#4) ∨ ∃ e ∈ Err.all, p.status = e.status ∧ p.sub = e.sub

/-- "Partial successes are not produced" (10_state.md R22 to R24, 20_memory.md R48): an error has no other field; a success has
none, R alone, OUT alone, or OUT with HDR. -/
def Response.whole (p : Response) : Prop :=
  if p.status = 0#3 then
    (p.r.isSome = true → p.out = none ∧ p.hdr = none) ∧ (p.hdr.isSome = true → p.out.isSome = true)
  else p.r = none ∧ p.out = none ∧ p.hdr = none

/-- A decoded header agrees with its info (42_frame.md R172, R173): the length field is valid and OUT has L / 2 bytes. -/
def Response.headerAgrees (p : Response) : Prop :=
  ∀ h b, p.hdr = some h → p.out = some b →
    lchksum h.lenf = lchk (lenid h.lenf) ∧ 2 * b.length = (lenid h.lenf).toNat

/-- OUT "is at most `2 * N_IN_MAX`" (92_eei_decisions.md D22, 41_hex_codec.md R141). -/
def Response.outFits (lim : InLimit) (p : Response) : Prop :=
  ∀ b extra, p.out = some b → lim = .bytes extra → b.length ≤ 2 * (4113 + extra)

/-- A response the FCB produces. -/
def Response.legal (lim : InLimit) (p : Response) : Prop :=
  p.listed ∧ p.whole ∧ p.headerAgrees ∧ p.outFits lim

/-- A legal state: the response, if one is there, is one the FCB produces, and none is there while a request is in flight
(10_state.md R27: a response does not survive the next request). -/
def State.Legal (s : State) : Prop :=
  (∀ p, s.response = some p → p.legal s.nInMax) ∧ (s.inFlight.isSome = true → s.response = none)

end Sys2Proof.Machine
end

