-- ==== Sys2Proof/Certificates/Slice0/Obligations.lean ====
section
/-! DEFINITION. The statements about the model, from the numbered rules of spec/. STATUS and SUB stand as the numbers of
30_encoding.md R80 and R81. -/

open Sys2Proof Sys2Proof.Machine

/-! Reset, the request port and the step. -/

/-- 10_state.md R28: after reset, and while the first request after it has not completed, no response field can be read. -/
def Obligations.ResetLeavesNothingToRead : Prop :=
  ∀ (s t : State) (q : Request), (t = State.reset ∨ t = s.assertReset) →
    t.inFlight = none ∧ t.issue q = .next (t.present q) ∧
      ∀ u, (u = t ∨ u = t.present q) →
        u.readStatus = .error (.absentField .status) ∧ u.readSub = .error (.absentField .sub) ∧
          u.readR = .error (.absentField .r) ∧ u.readOut = .error (.absentField .out) ∧
          u.readHdr = .error (.absentField .hdr)

/-- A reset abandons the request in flight without a response (70_reset_and_hazards.md R231); issued again, it gets the response
it would have got. That a step after the reset changes nothing is the model's choice, the idle step of assumption log 3 (DEDUCED,
unsafe); that reset keeps N_IN_MAX, so that the answer is the same, is assumption log 10 (DEDUCED). -/
def Obligations.ReissuedRequestAfterResetGetsItsAnswer : Prop :=
  ∀ (s : State) (q : Request), s.inFlight = some q →
    step s.assertReset = .next s.assertReset ∧ s.assertReset.response = none ∧
      ∃ p, step s = .next (s.answered p) ∧ s.assertReset.transact q = .next (s.answered p)

/-- The invariant `State.Legal` of Safety.lean holds at reset. -/
def Obligations.ResetStateIsLegal : Prop := State.reset.Legal

/-- The invariant `State.Legal` is kept by every step: a response has a (STATUS, SUB) pair of 30_encoding.md R81, an error has no
other field (10_state.md R24), HDR comes with OUT and agrees with it (42_frame.md R172, R173), OUT has at most
2 * N_IN_MAX bytes (92_eei_decisions.md D22), and no response stands while a request is in flight (the model's choice, assumption
log 2). -/
def Obligations.EveryStepKeepsStateLegal : Prop :=
  ∀ s t : State, s.Legal → step s = .next t → t.Legal

/-- The host's moves keep `State.Legal`: issuing, a whole transaction, reset. That the state after issue has no response while the
request is in flight, which `Legal` includes, is the model's choice (assumption log 2: DEDUCED, unsafe), and so is that reset keeps
N_IN_MAX (assumption log 10: DEDUCED). -/
def Obligations.HostMovesKeepStateLegal : Prop :=
  ∀ (s t : State) (q : Request), s.Legal →
    (s.issue q = .next t → t.Legal) ∧ (s.transact q = .next t → t.Legal) ∧ s.assertReset.Legal

/-- A step runs the decoded instruction of the request in flight; a word of the opcode table put in flight is run by the very
next step (assumption logs 6 and 7). The second clause holds of a busy state too, where the word takes the place of the request in
flight: the model's choice, no rule of the spec (assumption log 17: DESIGN CHOICE, unsafe). -/
def Obligations.StepRunsDecodedInstruction : Prop :=
  (∀ (s : State) (q : Request), s.inFlight = some q → step s = exec (decode q) s) ∧
    ∀ (s : State) (nbits w : Nat) (i : Instr), decodeTableWord nbits w = some i →
      step (s.withFetchWord nbits w) = exec i (s.withFetchWord nbits w)

/-- With no request in flight the block is idle: a step changes nothing (assumption log 3). -/
def Obligations.IdleBlockStaysAsItIs : Prop :=
  ∀ s : State, s.inFlight = none → step s = .next s

/-- 70_reset_and_hazards.md R233: a host with a request in flight has no move. -/
def Obligations.HostHasNoMoveWhileRequestInFlight : Prop :=
  ∀ (s : State) (q q' : Request), s.inFlight = some q →
    s.issue q' = .fault .hostHasNoMove ∧ s.transact q' = .fault .hostHasNoMove

/-- 70_reset_and_hazards.md R237: every request properly issued receives exactly one response, and the block is ready again. -/
def Obligations.EveryIssuedRequestIsAnswered : Prop :=
  ∀ (s : State) (q : Request), s.inFlight = none →
    ∃ p, s.transact q = .next (s.answered p) ∧ answer s.nInMax q = some p

/-- 20_memory.md R49: equal requests get equal responses whatever came before them, and an operation changes nothing but its own
response. -/
def Obligations.EqualRequestsGetEqualResponses : Prop :=
  ∀ (s s' : State) (q : Request), s.nInMax = s'.nInMax → s.inFlight = some q → s'.inFlight = some q →
    ∃ p, step s = .next (s.answered p) ∧ step s' = .next (s'.answered p)

/-- 20_memory.md R50: requests take effect one at a time in issue order, and each response is that of its own request. -/
def Obligations.ProgramResponsesAreThoseOfEachRequestAlone : Prop :=
  ∀ (qs : List Request) (s : State), s.inFlight = none →
    ∃ ps t, serve qs s = .next (ps, t) ∧ ps.map some = qs.map (answer s.nInMax) ∧ t.inFlight = none ∧
      t.nInMax = s.nInMax

/-! Encodings. -/

/-- 30_encoding.md R61: the opcode map, all sixteen values. -/
def Obligations.OpcodeMapDecodesAsTabled : Prop :=
  ∀ (a : Word) (inp : Bytes),
    decode ⟨0b0001#4, a, inp⟩ = .frameCsum a inp ∧ decode ⟨0b0010#4, a, inp⟩ = .csumVfy a inp ∧
    decode ⟨0b0011#4, a, inp⟩ = .lenEnc a inp ∧ decode ⟨0b0100#4, a, inp⟩ = .lenDec a inp ∧
    decode ⟨0b0101#4, a, inp⟩ = .hexEnc a inp ∧ decode ⟨0b0110#4, a, inp⟩ = .hexDec a inp ∧
    decode ⟨0b0111#4, a, inp⟩ = .frameEnc (a.extractLsb' 0 8) (a.extractLsb' 8 8) inp ∧
    decode ⟨0b1000#4, a, inp⟩ = .frameDec a inp ∧ decode ⟨0b0000#4, a, inp⟩ = .reserved0 a inp ∧
    decode ⟨0b1001#4, a, inp⟩ = .reserved9 a inp ∧ decode ⟨0b1010#4, a, inp⟩ = .reservedA a inp ∧
    decode ⟨0b1011#4, a, inp⟩ = .reservedB a inp ∧ decode ⟨0b1100#4, a, inp⟩ = .reservedC a inp ∧
    decode ⟨0b1101#4, a, inp⟩ = .reservedD a inp ∧ decode ⟨0b1110#4, a, inp⟩ = .reservedE a inp ∧
    decode ⟨0b1111#4, a, inp⟩ = .reservedF a inp

/-- Decoding and encoding undo each other, on every instruction with every operand and on every request (30_encoding.md R60
to R63): no bit is dropped and every request has one meaning. -/
def Obligations.DecodeAndEncodeAreInverse : Prop :=
  (∀ i : Instr, decode (encode i) = i) ∧ ∀ q : Request, encode (decode q) = q

/-- 30_encoding.md R67, R68, R69: the digit class, the value of a digit and the digit of a value. -/
def Obligations.HexDigitsHaveTheirAsciiCodes : Prop :=
  (∀ c : Byte, isHex c = true ↔
    (0x30 ≤ c.toNat ∧ c.toNat ≤ 0x39) ∨ (0x41 ≤ c.toNat ∧ c.toNat ≤ 0x46) ∨ (0x61 ≤ c.toNat ∧ c.toNat ≤ 0x66)) ∧
  (∀ (c : Byte) (n : Nibble), hexval c = some n ↔
    (0x30 ≤ c.toNat ∧ c.toNat ≤ 0x39 ∧ n.toNat = c.toNat - 0x30) ∨
    (0x41 ≤ c.toNat ∧ c.toNat ≤ 0x46 ∧ n.toNat = c.toNat - 0x37) ∨
    (0x61 ≤ c.toNat ∧ c.toNat ≤ 0x66 ∧ n.toNat = c.toNat - 0x57)) ∧
  ∀ n : Nibble, (hexchar n).toNat = if n.toNat ≤ 9 then 0x30 + n.toNat else 0x37 + n.toNat

/-- 20_memory.md R44: a four-digit field is two bytes, the first one high. -/
def Obligations.LengthFieldIsTwoBytesHighFirst : Prop :=
  ∀ (c d e f : Byte) (b0 b1 : Byte), val2 [c, d] = some b0 → val2 [e, f] = some b1 →
    val4 [c, d, e, f] = some ((b0.setWidth 16 <<< 8) ||| b1.setWidth 16)

/-- A line of assembler text is a request exactly when its A has at most 16 bits and its values are bytes; an omitted A is 0 and
an omitted IN is empty (30_encoding.md R65; the ASCII bound is assumption log 9); its OP is the number of the line's operation
(30_encoding.md R61). -/
def Obligations.AssemblerWritesExactlyTheFittingRequests : Prop :=
  ∀ l : AsmLine,
    ((∃ q, assemble l = some q) ↔
      (∀ v, l.a = some v → v < 0x10000) ∧ (∀ vs, l.inp = some (.listed vs) → ∀ v ∈ vs, v < 0x100) ∧
        ∀ cs, l.inp = some (.quoted cs) → ∀ c ∈ cs, c.toNat < 0x80) ∧
    ∀ q, assemble l = some q →
      q.op = (match l.mnemonic with
        | .frameCsum => 0x1#4 | .csumVfy => 0x2#4 | .lenEnc => 0x3#4 | .lenDec => 0x4#4
        | .hexEnc => 0x5#4 | .hexDec => 0x6#4 | .frameEnc => 0x7#4 | .frameDec => 0x8#4) ∧
      q.a.toNat = l.a.getD 0 ∧ (l.inp = none → q.inp = []) ∧
        (∀ vs, l.inp = some (.listed vs) → q.inp.map BitVec.toNat = vs) ∧
        ∀ cs, l.inp = some (.quoted cs) → q.inp.map BitVec.toNat = cs.map Char.toNat

/-- The STATUS and SUB numbers of 30_encoding.md R80 and R81, error by error. -/
def Obligations.StatusCodesAreAsTabled : Prop :=
  Err.all.map (fun e => (e.status.toNat, e.sub.toNat)) =
      [(1, 1), (1, 2), (1, 3), (1, 4), (1, 5), (1, 6), (1, 7), (2, 1), (2, 2), (3, 1), (3, 2), (4, 1), (4, 2), (4, 3),
       (5, 0), (6, 0)] ∧
    ∀ (status : BitVec 3) (sub : BitVec 4),
      (¬ (status = 0#3 ∧ sub = 0#4) ∧ (∀ e ∈ Err.all, ¬ (e.status = status ∧ e.sub = sub))) ↔
        Err.ofCodes status sub = .error (.unlistedStatus status sub)

/-! The interface: errors, priority, response fields. -/

/-- 60_exceptions.md R203 (30_encoding.md R62): a reserved opcode fails with IllegalOp, whatever A and IN hold, at any length of
IN. -/
def Obligations.ReservedOpcodesAnswerIllegalOp : Prop :=
  (∀ (a : Word) (inp : Bytes) (s : State) (i : Instr),
    i ∈ [Instr.reserved0 a inp, .reserved9 a inp, .reservedA a inp, .reservedB a inp, .reservedC a inp, .reservedD a inp,
      .reservedE a inp, .reservedF a inp] →
      exec i s = .next (s.answered (errResponse 5#3 0#4))) ∧
  ∀ (s : State) (q : Request), s.inFlight = some q → (q.op = 0x0#4 ∨ 0x9#4 ≤ q.op) →
    step s = .next (s.answered (errResponse 5#3 0#4))

/-- 60_exceptions.md R204: a non-reserved operation whose IN is longer than N_IN_MAX fails with InputOverflow, also where it does
not read IN; an unbounded block never reports it. -/
def Obligations.OversizeInputAnswersInputOverflow : Prop :=
  (∀ (i : Instr) (s : State) (extra : Nat), s.nInMax = .bytes extra → i.isReserved = false →
    4113 + extra < i.input.length → exec i s = .next (s.answered (errResponse 6#3 0#4))) ∧
  ∀ (i : Instr) (s t : State), (s.nInMax = .unbounded ∨ ∃ extra, s.nInMax = .bytes extra ∧ i.input.length ≤ 4113 + extra) →
    exec i s = .next t → t.readStatus ≠ .ok 6#3

/-- 20_memory.md R48: every operation ends in exactly one of two ways, success with every field it writes (10_state.md R23) or an
error with STATUS and SUB only; nothing else of the state changes but that the request is answered. -/
def Obligations.EveryOperationEndsInOneOfTwoWays : Prop :=
  ∀ (i : Instr) (s : State), ∃ p, exec i s = .next (s.answered p) ∧
    ((p.status = 0#3 ∧ p.sub = 0#4 ∧ (p.r.isSome, p.out.isSome, p.hdr.isSome) = instrWrites i) ∨
      ∃ e ∈ instrErrors i, p = errResponse e.status e.sub)

/-- 60_exceptions.md R201: each operation reports only success or the errors the table gives it, with the table's numbers. -/
def Obligations.OperationsReportOnlyTheirTabledErrors : Prop :=
  ∀ (i : Instr) (s t : State), exec i s = .next t →
    (t.readStatus = .ok 0#3 ∧ t.readSub = .ok 0#4) ∨
      ∃ e ∈ instrErrors i, t.readStatus = .ok e.status ∧ t.readSub = .ok e.sub

/-- 30_encoding.md R81: every pair of the table is produced by some request, and no other pair is ever produced. -/
def Obligations.ProducedStatusPairsAreExactlyTheTable : Prop :=
  ∀ (status : BitVec 3) (sub : BitVec 4),
    (∃ (i : Instr) (s t : State), exec i s = .next t ∧ t.readStatus = .ok status ∧ t.readSub = .ok sub) ↔
      (status.toNat, sub.toNat) ∈ [(0, 0), (1, 1), (1, 2), (1, 3), (1, 4), (1, 5), (1, 6), (1, 7), (2, 1), (2, 2), (3, 1),
        (3, 2), (4, 1), (4, 2), (4, 3), (5, 0), (6, 0)]

/-- 00_scope.md R12, 10_state.md R24: after an error response, reading R, OUT or HDR is a fault of the reader. -/
def Obligations.ErrorResponseHasNoFieldToRead : Prop :=
  ∀ (i : Instr) (s t : State), exec i s = .next t → t.readStatus ≠ .ok 0#3 →
    t.readR = .error (.absentField .r) ∧ t.readOut = .error (.absentField .out) ∧ t.readHdr = .error (.absentField .hdr)

/-- 30_encoding.md R64: an operation ignores the value of an operand it does not read, but for the length check of IN. -/
def Obligations.UnreadOperandsAreIgnored : Prop :=
  ∀ (a a' : Word) (inp inp' : Bytes) (s : State),
    exec (.frameCsum a inp) s = exec (.frameCsum a' inp) s ∧ exec (.hexEnc a inp) s = exec (.hexEnc a' inp) s ∧
    exec (.hexDec a inp) s = exec (.hexDec a' inp) s ∧ exec (.frameDec a inp) s = exec (.frameDec a' inp) s ∧
    (s.nInMax.admits inp.length = s.nInMax.admits inp'.length →
      exec (.lenEnc a inp) s = exec (.lenEnc a inp') s ∧ exec (.lenDec a inp) s = exec (.lenDec a inp') s)

/-! The checksum units. -/

/-- 40_checksum.md R100: the 16-bit accumulator that wraps after each byte holds the unbounded sum mod 0x10000. -/
def Obligations.WrappingAccumulatorHoldsTheByteSum : Prop :=
  ∀ s : Bytes, (sum16 s).toNat = (s.map BitVec.toNat).sum % 0x10000 ∧ runningSum s = sum16 s ∧ sum16 [] = 0#16

/-- 40_checksum.md R101: the 16-bit negation. -/
def Obligations.NegationIsTwosComplement : Prop :=
  ∀ x : Word, neg16 x = -x ∧ (x = 0#16 → neg16 x = 0#16) ∧ (x ≠ 0#16 → (neg16 x).toNat = 0x10000 - x.toNat)

/-- 40_checksum.md R103: the invertibility law of the frame checksum. -/
def Obligations.FrameChecksumIsInvertible : Prop :=
  ∀ s : Bytes, ((sum16 s).toNat + (chk16 s).toNat) % 0x10000 = 0 ∧
    ∀ c : Word, ((sum16 s).toNat + c.toNat) % 0x10000 = 0 ↔ c = chk16 s

/-- 40_checksum.md R105: the length nibble, by both formulas, and the 256 lengths whose nibble sum is 0 mod 16. -/
def Obligations.LengthNibbleIsNegatedNibbleSum : Prop :=
  (∀ l : Length, (lchk l).toNat = (15 - nsum l % 16 + 1) % 16 ∧ (lchk l).toNat = (16 - nsum l % 16) % 16 ∧
    (nsum l % 16 = 0 ↔ lchk l = 0#4)) ∧
  ((List.range 4096).filter fun n => decide (nsum (BitVec.ofNat 12 n) % 16 = 0)).length = 256 ∧ nsum 0#12 % 16 = 0

/-- 40_checksum.md R107: a zero length encodes to 0, and an implementation with that special case agrees with one without it. -/
def Obligations.ZeroLengthNeedsNoSpecialCase : Prop :=
  lenfield 0#12 = 0x0000#16 ∧
    ∀ l : Length, (if l = 0#12 then 0x0000#16 else ((lchk l).setWidth 16 <<< 12) ||| l.setWidth 16) = lenfield l

/-- 40_checksum.md R108: the invertibility law of the length field. -/
def Obligations.LengthFieldIsInvertible : Prop :=
  ∀ l : Length, (nsum l + (lchk l).toNat) % 16 = 0 ∧ (lenfield l).extractLsb' 0 12 = l ∧
    (lenfield l).extractLsb' 12 4 = lchk l ∧
    ∀ f : Word, (f.extractLsb' 12 4 = lchk (f.extractLsb' 0 12) ∧ f.extractLsb' 0 12 = l) ↔ f = lenfield l

/-- 40_checksum.md R110: FRAME_CSUM completes with R the negated byte sum, for any bytes. -/
def Obligations.FrameCsumAnswersTheChecksum : Prop :=
  ∀ (a : Word) (inp : Bytes) (s : State), s.nInMax.admits inp.length = true →
    exec (.frameCsum a inp) s = .next (s.answered (okResponse (some (chk16 inp)) none none)) ∧
      (chk16 inp).toNat = (0x10000 - (inp.map BitVec.toNat).sum % 0x10000) % 0x10000

/-- 40_checksum.md R111: CSUM_VFY completes exactly on the checksum of IN, and otherwise reports ChecksumMismatch(Frame). -/
def Obligations.CsumVfyAcceptsExactlyTheChecksum : Prop :=
  ∀ (a : Word) (inp : Bytes) (s : State), s.nInMax.admits inp.length = true →
    (a = chk16 inp → exec (.csumVfy a inp) s = .next (s.answered (okResponse none none none))) ∧
    (a ≠ chk16 inp → exec (.csumVfy a inp) s = .next (s.answered (errResponse 2#3 1#4))) ∧
    (a = chk16 inp ↔ ((inp.map BitVec.toNat).sum + a.toNat) % 0x10000 = 0)

/-- The source's checksum property in the machine: CSUM_VFY accepts what FRAME_CSUM answered for the same bytes. -/
def Obligations.CsumVfyAcceptsWhatFrameCsumAnswered : Prop :=
  ∀ (a : Word) (inp : Bytes) (s : State), s.inFlight = none → s.nInMax.admits inp.length = true →
    ∃ t r u, s.transact ⟨0x1#4, a, inp⟩ = .next t ∧ t.readR = .ok r ∧ t.transact ⟨0x2#4, r, inp⟩ = .next u ∧
      u.readStatus = .ok 0#3

/-- 40_checksum.md R112: LEN_ENC completes for A up to 0x0FFF with R the length field, in decimal places of 16; above, it reports
EncodingError(TooLong). -/
def Obligations.LenEncAnswersTheLengthField : Prop :=
  ∀ (a : Word) (inp : Bytes) (s : State), s.nInMax.admits inp.length = true →
    (a.toNat ≤ 0x0FFF → exec (.lenEnc a inp) s = .next (s.answered (okResponse (some (lenfield (a.extractLsb' 0 12))) none none)) ∧
      (lenfield (a.extractLsb' 0 12)).toNat =
        (16 - (a.toNat % 16 + a.toNat / 16 % 16 + a.toNat / 256) % 16) % 16 * 0x1000 + a.toNat) ∧
    (0x0FFF < a.toNat → exec (.lenEnc a inp) s = .next (s.answered (errResponse 4#3 1#4)))

/-- 40_checksum.md R113: LEN_DEC completes exactly on a valid length field, with R its low 12 bits, and otherwise reports
ChecksumMismatch(Length). -/
def Obligations.LenDecAcceptsExactlyValidFields : Prop :=
  ∀ (a : Word) (inp : Bytes) (s : State), s.nInMax.admits inp.length = true →
    (a.extractLsb' 12 4 = lchk (a.extractLsb' 0 12) →
      exec (.lenDec a inp) s = .next (s.answered (okResponse (some (a &&& 0x0FFF#16)) none none))) ∧
    (a.extractLsb' 12 4 ≠ lchk (a.extractLsb' 0 12) →
      exec (.lenDec a inp) s = .next (s.answered (errResponse 2#3 2#4))) ∧
    (a.extractLsb' 12 4 = lchk (a.extractLsb' 0 12) ↔
      (a.toNat % 16 + a.toNat / 16 % 16 + a.toNat / 256 % 16 + a.toNat / 0x1000) % 16 = 0)

/-- The source's length property in the machine: LEN_DEC recovers the length that LEN_ENC encoded. -/
def Obligations.LenDecRecoversWhatLenEncEncoded : Prop :=
  ∀ (l : Word) (s : State), s.inFlight = none → l.toNat ≤ 0x0FFF →
    ∃ t f u, s.transact ⟨0x3#4, l, []⟩ = .next t ∧ t.readR = .ok f ∧ t.transact ⟨0x4#4, f, []⟩ = .next u ∧
      u.readStatus = .ok 0#3 ∧ u.readR = .ok l

/-! The ASCII-hex codec. -/

/-- 41_hex_codec.md R141 (R140): HEX_ENC completes with OUT two upper-case digits for each byte, the high nibble first. -/
def Obligations.HexEncWritesTwoDigitsPerByte : Prop :=
  ∀ (a : Word) (inp : Bytes) (s : State), s.nInMax.admits inp.length = true →
    exec (.hexEnc a inp) s = .next (s.answered (okResponse none (some (hexenc inp)) none)) ∧
      (hexenc inp).length = 2 * inp.length ∧
      ∀ (k : Nat) (b : Byte), inp[k]? = some b →
        (hexenc inp)[2 * k]? = some (hexchar (b.extractLsb' 4 4)) ∧
          (hexenc inp)[2 * k + 1]? = some (hexchar (b.extractLsb' 0 4))

/-- 41_hex_codec.md R143 (R142): HEX_DEC reports OddLength, else BadHex, else completes with OUT the value of each pair. -/
def Obligations.HexDecReadsPairsAfterTwoChecks : Prop :=
  ∀ (a : Word) (inp : Bytes) (s : State), s.nInMax.admits inp.length = true →
    (inp.length % 2 = 1 → exec (.hexDec a inp) s = .next (s.answered (errResponse 1#3 6#4))) ∧
    (inp.length % 2 = 0 → (∃ c ∈ inp, isHex c = false) →
      exec (.hexDec a inp) s = .next (s.answered (errResponse 1#3 7#4))) ∧
    (inp.length % 2 = 0 → (∀ c ∈ inp, isHex c = true) →
      ∃ out, exec (.hexDec a inp) s = .next (s.answered (okResponse none (some out) none)) ∧ 2 * out.length = inp.length ∧
        ∀ (k : Nat) (c d : Byte), inp[2 * k]? = some c → inp[2 * k + 1]? = some d →
          ∃ x y b, hexval c = some x ∧ hexval d = some y ∧ out[k]? = some b ∧ b.toNat = 16 * x.toNat + y.toNat)

/-- 41_hex_codec.md R144: the round-trip laws of the codec, case included. -/
def Obligations.HexCodecRoundTrips : Prop :=
  (∀ b : Bytes, hexdec (hexenc b) = .ok b) ∧
  ∀ s b : Bytes, hexdec s = .ok b →
    (hexenc b = s ↔ ∀ c ∈ s, ¬ (0x61#8 ≤ c ∧ c ≤ 0x66#8)) ∧
      hexenc b = s.map fun c => if 0x61#8 ≤ c ∧ c ≤ 0x66#8 then c - 0x20#8 else c

/-! The frame serializer. -/

/-- 42_frame.md R161: FRAME_ENC's three checks in their order, and its completion with the frame of R160. -/
def Obligations.FrameEncBuildsTheFrameAfterThreeChecks : Prop :=
  ∀ (adr cid2 : Byte) (inp : Bytes) (s : State), s.nInMax.admits inp.length = true →
    (4095 < inp.length → exec (.frameEnc adr cid2 inp) s = .next (s.answered (errResponse 4#3 1#4))) ∧
    (inp.length ≤ 4095 → (∃ c ∈ inp, isHex c = false) →
      exec (.frameEnc adr cid2 inp) s = .next (s.answered (errResponse 4#3 2#4))) ∧
    (inp.length ≤ 4095 → (∀ c ∈ inp, isHex c = true) → inp.length % 2 = 1 →
      exec (.frameEnc adr cid2 inp) s = .next (s.answered (errResponse 4#3 3#4))) ∧
    (inp.length ≤ 4095 → (∀ c ∈ inp, isHex c = true) → inp.length % 2 = 0 →
      exec (.frameEnc adr cid2 inp) s = .next (s.answered (okResponse none (some (buildFrame adr cid2 inp)) none)))

/-- 42_frame.md R162: the shape of an encoded frame. -/
def Obligations.EncodedFrameHasItsShape : Prop :=
  ∀ (adr cid2 : Byte) (inp f : Bytes) (s t : State), exec (.frameEnc adr cid2 inp) s = .next t → t.readOut = .ok f →
    f.length = 18 + inp.length ∧ f[0]? = some 0x7E#8 ∧ f[17 + inp.length]? = some 0x0D#8 ∧
    seg f 1 12 = [0x32#8, 0x30#8] ++ hex2 adr ++ [0x34#8, 0x36#8] ++ hex2 cid2 ++ hex4 (lenfield (BitVec.ofNat 12 inp.length)) ∧
    seg f 13 inp.length = inp ∧
    val4 (seg f (13 + inp.length) 4) = some (chk16 (seg f 1 (12 + inp.length))) ∧
    (∀ c ∈ seg f 1 (16 + inp.length), isHex c = true) ∧
    (∀ c ∈ seg f 1 12 ++ seg f (13 + inp.length) 4, c < 0x61#8)

/-- 42_frame.md R163: the frame is what LEN_ENC, HEX_ENC and FRAME_CSUM give piece by piece. -/
def Obligations.FrameEncIsComposedOfTheUnits : Prop :=
  ∀ (adr cid2 : Byte) (inp f : Bytes) (s t : State) (a : Word), exec (.frameEnc adr cid2 inp) s = .next t →
    t.readOut = .ok f →
    (∀ b : Byte, ∃ u, exec (.hexEnc a [b]) s = .next u ∧ u.readOut = .ok (hex2 b)) ∧
    (∃ u r, exec (.lenEnc (BitVec.ofNat 16 inp.length) []) s = .next u ∧ u.readR = .ok r ∧ seg f 9 4 = hex4 r) ∧
    (∃ u r, exec (.frameCsum a (hex2 0x20#8 ++ hex2 adr ++ hex2 0x46#8 ++ hex2 cid2 ++ seg f 9 4 ++ inp)) s = .next u ∧
      u.readR = .ok r ∧ seg f (13 + inp.length) 4 = hex4 r) ∧
    f = [0x7E#8] ++ hex2 0x20#8 ++ hex2 adr ++ hex2 0x46#8 ++ hex2 cid2 ++ seg f 9 4 ++ inp ++ seg f (13 + inp.length) 4 ++
      [0x0D#8]

/-- 30_encoding.md R77: frame lengths. -/
def Obligations.FrameLengthsAreBounded : Prop :=
  (∀ (adr cmd : Byte) (t : Bytes), t.length ≤ 4095 →
    (buildFrame adr cmd t).length = 18 + t.length ∧ 18 ≤ (buildFrame adr cmd t).length ∧
      (buildFrame adr cmd t).length ≤ 4113) ∧
  (∀ (adr cid2 : Byte) (inp f : Bytes) (s t : State), exec (.frameEnc adr cid2 inp) s = .next t → t.readOut = .ok f →
    f.length % 2 = 0 ∧ f.length ≤ 4112) ∧
  (∀ (adr cid2 : Byte) (s : State), ∃ inp t f, exec (.frameEnc adr cid2 inp) s = .next t ∧ t.readOut = .ok f ∧
    f.length = 4112)

/-- The listed commands have the CID2 numbers and the stated infos of 30_encoding.md R78 and R79, and each, with its stated info,
or any even hex text where the source states none, is encoded by one transaction. That the single module has 0x42 and the scan
probe 0x93, and that address digits are upper case, are the model's choices (assumption log 18: DESIGN CHOICE); that the host gives
the info where none is stated is assumption log 15. -/
def Obligations.ListedCommandsAreEncoded : Prop :=
  (Command.protocolVersion.cid2 = 0x4F#8 ∧ Command.protocolVersion.statedInfo = none) ∧
  (Command.manufacturerInfo.cid2 = 0x51#8 ∧ Command.manufacturerInfo.statedInfo = none) ∧
  (Command.systemParameters.cid2 = 0x47#8 ∧ Command.systemParameters.statedInfo = none) ∧
  (Command.managementInfo.cid2 = 0x92#8 ∧ Command.managementInfo.statedInfo = none) ∧
  (Command.moduleSerialNumber.cid2 = 0x93#8 ∧ Command.moduleSerialNumber.statedInfo = none) ∧
  (Command.getValuesAllModules.cid2 = 0x42#8 ∧ Command.getValuesAllModules.statedInfo = some [0x46#8, 0x46#8]) ∧
  (∀ m : Byte, (Command.getValuesSingleModule m).cid2 = 0x42#8 ∧
    (Command.getValuesSingleModule m).statedInfo = some [hexchar (m.extractLsb' 4 4), hexchar (m.extractLsb' 0 4)]) ∧
  (∀ m : Byte, (Command.serialNumberScanProbe m).cid2 = 0x93#8 ∧
    (Command.serialNumberScanProbe m).statedInfo = some [hexchar (m.extractLsb' 4 4), hexchar (m.extractLsb' 0 4)]) ∧
  ∀ (c : Command) (adr : Byte) (hostInfo : Bytes) (s : State), s.inFlight = none →
    hostInfo.length ≤ 4094 → hostInfo.length % 2 = 0 → (∀ x ∈ hostInfo, isHex x = true) →
    s.transact (c.request adr hostInfo) =
      .next (s.answered (okResponse none (some (buildFrame adr c.cid2 (c.statedInfo.getD hostInfo))) none))

/-! The frame deserializer. -/

/-- 42_frame.md R171 (R170): the eleven checks of FRAME_DEC in their order; the first that fails decides the response. -/
def Obligations.FrameDecReportsTheFirstFailingCheck : Prop :=
  ∀ (a : Word) (inp : Bytes) (s : State), s.nInMax.admits inp.length = true →
    let n := inp.length
    let fails (status : BitVec 3) (sub : BitVec 4) : Prop :=
      exec (.frameDec a inp) s = .next (s.answered (errResponse status sub))
    let started : Prop := inp[0]? = some 0x7E#8
    let ended : Prop := 2 ≤ n ∧ inp[n - 1]? = some 0x0D#8
    (¬ started → fails 1#3 1#4) ∧
    (started → ¬ ended → fails 1#3 2#4) ∧
    (started → ended → n < 6 → fails 3#3 1#4) ∧
    (started → ended → 6 ≤ n → (∃ c ∈ seg inp (n - 5) 4, isHex c = false) → fails 1#3 3#4) ∧
    ∀ ck : Word, started → ended → 6 ≤ n → val4 (seg inp (n - 5) 4) = some ck →
      (chk16 (seg inp 1 (n - 6)) ≠ ck → fails 2#3 1#4) ∧
      (chk16 (seg inp 1 (n - 6)) = ck →
        (n < 18 → fails 3#3 2#4) ∧
        (18 ≤ n → (∃ c ∈ seg inp 1 12, isHex c = false) → fails 1#3 4#4) ∧
        ∀ f : Word, 18 ≤ n → (∀ c ∈ seg inp 1 12, isHex c = true) → val4 (seg inp 9 4) = some f →
          (f.extractLsb' 12 4 ≠ lchk (f.extractLsb' 0 12) → fails 2#3 2#4) ∧
          (f.extractLsb' 12 4 = lchk (f.extractLsb' 0 12) →
            (n - 18 ≠ (f.extractLsb' 0 12).toNat → fails 1#3 5#4) ∧
            (n - 18 = (f.extractLsb' 0 12).toNat →
              ((n - 18) % 2 = 1 → fails 1#3 6#4) ∧
              ((n - 18) % 2 = 0 → (∃ c ∈ seg inp 13 (n - 18), isHex c = false) → fails 1#3 7#4))))

/-- 42_frame.md R172, R173: where no check of R171 fails, FRAME_DEC completes with the five fields of the header and the binary
info. -/
def Obligations.FrameDecAnswersHeaderAndInfo : Prop :=
  ∀ (a : Word) (inp : Bytes) (f : Word) (s : State), s.nInMax.admits inp.length = true → 18 ≤ inp.length →
    inp[0]? = some 0x7E#8 → inp[inp.length - 1]? = some 0x0D#8 →
    val4 (seg inp (inp.length - 5) 4) = some (chk16 (seg inp 1 (inp.length - 6))) →
    (∀ c ∈ seg inp 1 12, isHex c = true) → val4 (seg inp 9 4) = some f →
    f.extractLsb' 12 4 = lchk (f.extractLsb' 0 12) → inp.length - 18 = (f.extractLsb' 0 12).toNat → inp.length % 2 = 0 →
    (∀ c ∈ seg inp 13 (inp.length - 18), isHex c = true) →
    ∃ h out, exec (.frameDec a inp) s = .next (s.answered (okResponse none (some out) (some h))) ∧
      val2 (seg inp 1 2) = some h.ver ∧ val2 (seg inp 3 2) = some h.adr ∧ val2 (seg inp 5 2) = some h.cid1 ∧
      val2 (seg inp 7 2) = some h.cid2 ∧ h.lenf = f ∧
      hexdec (seg inp 13 (inp.length - 18)) = .ok out ∧ 2 * out.length = (f.extractLsb' 0 12).toNat

/-- FRAME_DEC accepts nothing else (42_frame.md R171, 30_encoding.md R72, R77, R82): an accepted IN is one whole frame. -/
def Obligations.FrameDecAcceptsOnlyWholeFrames : Prop :=
  ∀ (a : Word) (inp : Bytes) (s t : State) (h : Hdr), exec (.frameDec a inp) s = .next t → t.readHdr = .ok h →
    inp[0]? = some 0x7E#8 ∧ inp[inp.length - 1]? = some 0x0D#8 ∧
    inp.length = 18 + (h.lenf.extractLsb' 0 12).toNat ∧ inp.length % 2 = 0 ∧
    h.lenf.extractLsb' 12 4 = lchk (h.lenf.extractLsb' 0 12) ∧
    val4 (seg inp (inp.length - 5) 4) = some (chk16 (seg inp 1 (inp.length - 6))) ∧
    (∀ c ∈ seg inp 1 (inp.length - 2), isHex c = true) ∧
    val4 (seg inp 9 4) = some h.lenf

/-- 42_frame.md R174: VER, CID1 and CID2 are reported and not compared with anything. -/
def Obligations.FrameDecReportsAnyFixedFields : Prop :=
  ∀ (a : Word) (ver adr cid1 cid2 : Byte) (t out : Bytes) (s : State), t.length ≤ 4095 → hexdec t = .ok out →
    let data := hex2 ver ++ hex2 adr ++ hex2 cid1 ++ hex2 cid2 ++ hex4 (lenfield (BitVec.ofNat 12 t.length)) ++ t
    exec (.frameDec a ([0x7E#8] ++ data ++ hex4 (chk16 data) ++ [0x0D#8])) s =
      .next (s.answered (okResponse none (some out)
        (some ⟨ver, adr, cid1, cid2, lenfield (BitVec.ofNat 12 t.length)⟩)))

/-! Laws of the pair. -/

/-- 42_frame.md R175: FRAME_DEC of what FRAME_ENC answered gives the address, the command and the info back, for binary info of up
to 2047 bytes and for any even hex text of up to 4094 characters; two transactions of the machine. -/
def Obligations.FrameDecodesWhatWasEncoded : Prop :=
  (∀ (adr cid2 : Byte) (b : Bytes) (a : Word) (s : State), s.inFlight = none → b.length ≤ 2047 →
    ∃ t f u, s.transact ⟨0x7#4, (cid2.setWidth 16 <<< 8) ||| adr.setWidth 16, hexenc b⟩ = .next t ∧ t.readOut = .ok f ∧
      t.transact ⟨0x8#4, a, f⟩ = .next u ∧ u.readStatus = .ok 0#3 ∧ u.readOut = .ok b ∧
      u.readHdr = .ok ⟨0x20#8, adr, 0x46#8, cid2, lenfield (BitVec.ofNat 12 (2 * b.length))⟩) ∧
  (∀ (adr cid2 : Byte) (text : Bytes) (a : Word) (s : State), s.inFlight = none → text.length ≤ 4094 →
    text.length % 2 = 0 → (∀ c ∈ text, isHex c = true) →
    ∃ t f u b, s.transact ⟨0x7#4, (cid2.setWidth 16 <<< 8) ||| adr.setWidth 16, text⟩ = .next t ∧ t.readOut = .ok f ∧
      t.transact ⟨0x8#4, a, f⟩ = .next u ∧ u.readStatus = .ok 0#3 ∧ hexdec text = .ok b ∧ u.readOut = .ok b ∧
      u.readHdr = .ok ⟨0x20#8, adr, 0x46#8, cid2, lenfield (BitVec.ofNat 12 text.length)⟩)

/-- 42_frame.md R176: what FRAME_DEC answers for an encoded frame with one byte replaced. -/
def Obligations.SingleByteTamperIsReported : Prop :=
  ∀ (adr cid2 : Byte) (inp f : Bytes) (s t : State) (a : Word) (u : State) (j : Nat) (old new : Byte),
    exec (.frameEnc adr cid2 inp) s = .next t → t.readOut = .ok f → f[j]? = some old → new ≠ old →
    let fails (status : BitVec 3) (sub : BitVec 4) : Prop :=
      exec (.frameDec a (f.set j new)) u = .next (u.answered (errResponse status sub))
    (j = 0 → fails 1#3 1#4) ∧
    (j = 17 + inp.length → fails 1#3 2#4) ∧
    (1 ≤ j → j ≤ 12 + inp.length → fails 2#3 1#4) ∧
    (13 + inp.length ≤ j → j ≤ 16 + inp.length → isHex new = false → fails 1#3 3#4) ∧
    (13 + inp.length ≤ j → j ≤ 16 + inp.length → isHex new = true → hexval new ≠ hexval old → fails 2#3 1#4) ∧
    (13 + inp.length ≤ j → j ≤ 16 + inp.length → hexval new = hexval old →
      exec (.frameDec a (f.set j new)) u = exec (.frameDec a f) u ∧
        ∃ out h, exec (.frameDec a f) u = .next (u.answered (okResponse none (some out) (some h))))

/-- 42_frame.md R177: a change of the data that keeps its sum is not detected by the frame checksum, and swapping the two address
characters is accepted with the swapped address. -/
def Obligations.SumKeepingChangesAreNotDetected : Prop :=
  (∀ (a : Word) (d d' ck : Bytes) (s : State), ck.length = 4 → d.length = d'.length →
    s.nInMax.admits (d.length + 6) = true →
    (d.map BitVec.toNat).sum % 0x10000 = (d'.map BitVec.toNat).sum % 0x10000 →
    (exec (.frameDec a ([0x7E#8] ++ d ++ ck ++ [0x0D#8])) s = .next (s.answered (errResponse 2#3 1#4)) ↔
      exec (.frameDec a ([0x7E#8] ++ d' ++ ck ++ [0x0D#8])) s = .next (s.answered (errResponse 2#3 1#4)))) ∧
  (∀ (a : Word) (x y : Nibble) (cid2 : Byte) (t out : Bytes) (s : State), t.length ≤ 4095 → hexdec t = .ok out →
    let rest := [0x34#8, 0x36#8] ++ hex2 cid2 ++ hex4 (lenfield (BitVec.ofNat 12 t.length)) ++ t
    let ck := hex4 (chk16 ([0x32#8, 0x30#8, hexchar x, hexchar y] ++ rest))
    exec (.frameDec a ([0x7E#8] ++ ([0x32#8, 0x30#8, hexchar y, hexchar x] ++ rest) ++ ck ++ [0x0D#8])) s =
      .next (s.answered (okResponse none (some out)
        (some ⟨0x20#8, (y.setWidth 8 <<< 4) ||| x.setWidth 8, 0x46#8, cid2, lenfield (BitVec.ofNat 12 t.length)⟩)))) ∧
  ∀ l l' : Length, nsum l % 16 = nsum l' % 16 → lchk l = lchk l'
end

