-- ==== Sys2Proof/Laws/Checksum.lean ====
section
/-! SUPPORT. The checksum arithmetic (40_checksum.md part 1). -/

namespace Sys2Proof.Machine

@[simp] theorem byteSum_nil : byteSum [] = 0 := rfl
@[simp] theorem byteSum_cons (b : Byte) (s : Bytes) : byteSum (b :: s) = b.toNat + byteSum s := by simp [byteSum]
@[simp] theorem byteSum_append (s t : Bytes) : byteSum (s ++ t) = byteSum s + byteSum t := by simp [byteSum]

/-- Replacing one byte moves the sum by the difference of the two bytes. -/
theorem byteSum_set (s : Bytes) (j : Nat) (v b : Byte) (h : s[j]? = some b) :
    byteSum (s.set j v) + b.toNat = byteSum s + v.toNat := by
  induction s generalizing j with
  | nil => simp at h
  | cons c s ih =>
    cases j with
    | zero => simp at h; simp [h]; omega
    | succ j => simp at h; have := ih j h; simp; omega

theorem toNat_sum16 (s : Bytes) : (sum16 s).toNat = byteSum s % 0x10000 := by
  simp [sum16]

theorem toNat_neg16 (x : Word) : (neg16 x).toNat = (0x10000 - x.toNat) % 0x10000 := by
  have := x.isLt
  simp [neg16]; omega

theorem toNat_chk16 (s : Bytes) : (chk16 s).toNat = (0x10000 - byteSum s % 0x10000) % 0x10000 := by
  rw [chk16, toNat_neg16, toNat_sum16]

/-- Two sequences have one checksum exactly when their sums agree mod 0x10000. -/
theorem chk16_eq_iff (s t : Bytes) : chk16 s = chk16 t ↔ byteSum s % 0x10000 = byteSum t % 0x10000 := by
  rw [BitVec.toNat_inj.symm, toNat_chk16, toNat_chk16]
  omega

theorem foldl_add_byte (s : Bytes) (acc : Word) :
    (s.foldl (fun acc b => acc + b.setWidth 16) acc).toNat = (acc.toNat + byteSum s) % 0x10000 := by
  induction s generalizing acc with
  | nil => have := acc.isLt; simp; omega
  | cons b s ih =>
    have := b.isLt
    simp only [List.foldl_cons, ih, byteSum_cons, BitVec.toNat_add, BitVec.toNat_setWidth]
    omega

/-- The value of the accumulator of FRAME_CSUM after the last byte. -/
theorem toNat_runningSum (s : Bytes) : (runningSum s).toNat = byteSum s % 0x10000 := by
  simp [runningSum, foldl_add_byte]

theorem toNat_lchk (l : Length) : (lchk l).toNat = (16 - nsum l % 16) % 16 := by
  simp [lchk]; omega

theorem nsum_eq (l : Length) : nsum l = l.toNat % 16 + l.toNat / 16 % 16 + l.toNat / 256 := by
  have := l.isLt
  simp [nsum, BitVec.extractLsb'_toNat, Nat.shiftRight_eq_div_pow]
  omega

theorem toNat_lenid (f : Word) : (lenid f).toNat = f.toNat % 0x1000 := by
  simp [lenid, BitVec.extractLsb'_toNat]

theorem toNat_lchksum (f : Word) : (lchksum f).toNat = f.toNat / 0x1000 := by
  have := f.isLt
  simp [lchksum, BitVec.extractLsb'_toNat, Nat.shiftRight_eq_div_pow]
  omega

/-- The length field as a concatenation: LCHKSUM above LENID (30_encoding.md R74). -/
theorem toNat_lenfield (l : Length) : (lenfield l).toNat = (lchk l).toNat * 0x1000 + l.toNat := by
  have h1 := (lchk l).isLt
  have h2 := l.isLt
  rw [lenfield, BitVec.toNat_or, BitVec.toNat_shiftLeft, BitVec.toNat_setWidth, BitVec.toNat_setWidth,
    Nat.mod_eq_of_lt (a := (lchk l).toNat) (by omega), Nat.mod_eq_of_lt (a := l.toNat) (by omega), Nat.shiftLeft_eq,
    Nat.mod_eq_of_lt (by omega), ← Nat.shiftLeft_eq, ← Nat.shiftLeft_add_eq_or_of_lt (by omega), Nat.shiftLeft_eq]

@[simp] theorem lenid_lenfield (l : Length) : lenid (lenfield l) = l := by
  apply BitVec.eq_of_toNat_eq
  have h2 := l.isLt
  rw [toNat_lenid, toNat_lenfield]; omega

@[simp] theorem lchksum_lenfield (l : Length) : lchksum (lenfield l) = lchk l := by
  apply BitVec.eq_of_toNat_eq
  have h2 := l.isLt
  rw [toNat_lchksum, toNat_lenfield]; omega

end Sys2Proof.Machine
end

