-- ==== Sys2Proof/Laws/Operands.lean ====
section
/-! SUPPORT. Subsequences, hex digits and hex fields. -/

namespace Sys2Proof.Machine

theorem length_seg (s : Bytes) (i n : Nat) : (seg s i n).length = min n (s.length - i) := by
  simp [seg]

theorem length_seg_of_le {s : Bytes} {i n : Nat} (h : i + n ≤ s.length) : (seg s i n).length = n := by
  rw [length_seg]; omega

theorem getElem?_seg (s : Bytes) (i n k : Nat) : (seg s i n)[k]? = if k < n then s[i + k]? else none := by
  simp only [seg, List.getElem?_take, List.getElem?_drop]

/-- A subsequence of a subsequence that it holds whole. -/
theorem seg_seg (s : Bytes) (i n j m : Nat) (h : j + m ≤ n) : seg (seg s i n) j m = seg s (i + j) m := by
  apply List.ext_getElem?
  intro k
  simp only [getElem?_seg]
  split
  · rw [if_pos (by omega), Nat.add_assoc]
  · rfl

/-- The middle part of three parts. -/
theorem seg_append (p q r : Bytes) (i n : Nat) (hi : p.length = i) (hn : q.length = n) : seg (p ++ q ++ r) i n = q := by
  subst hi hn
  simp [seg, List.append_assoc]

theorem hexval_isSome (c : Byte) : (hexval c).isSome = isHex c := by
  revert c; decide

theorem hexval_hexchar (n : Nibble) : hexval (hexchar n) = some n := by
  revert n; decide

theorem isHex_hexchar (n : Nibble) : isHex (hexchar n) = true := by
  revert n; decide

/-- The digits the FCB writes are not lower case (30_encoding.md R69). -/
theorem hexchar_lt (n : Nibble) : hexchar n < 0x61#8 := by
  revert n; decide

/-- Writing the value of a digit gives the digit in upper case. -/
theorem hexchar_of_hexval {c : Byte} {n : Nibble} (h : hexval c = some n) :
    hexchar n = if 0x61#8 ≤ c then c - 0x20#8 else c := by
  revert c n; decide

theorem exists_hexval {c : Byte} (h : isHex c = true) : ∃ n, hexval c = some n :=
  Option.isSome_iff_exists.mp (by rw [hexval_isSome, h])

theorem hexval_eq_none {c : Byte} (h : isHex c = false) : hexval c = none := by
  rw [← Option.isNone_iff_eq_none, ← Option.not_isSome, hexval_isSome, h]; rfl

@[simp] theorem length_hex2 (b : Byte) : (hex2 b).length = 2 := rfl
@[simp] theorem length_hex4 (w : Word) : (hex4 w).length = 4 := rfl

theorem all_isHex_hex2 (b : Byte) : (hex2 b).all isHex = true := by simp [hex2, isHex_hexchar]
theorem all_isHex_hex4 (w : Word) : (hex4 w).all isHex = true := by simp [hex4, isHex_hexchar]

theorem val2_of_hexval {c d : Byte} {x y : Nibble} (hc : hexval c = some x) (hd : hexval d = some y) :
    val2 [c, d] = some (join2 x y) := by
  simp [val2, hc, hd]

theorem val4_of_hexval {c d e f : Byte} {x y z w : Nibble} (hc : hexval c = some x) (hd : hexval d = some y)
    (he : hexval e = some z) (hf : hexval f = some w) : val4 [c, d, e, f] = some (join4 x y z w) := by
  simp [val4, hc, hd, he, hf]

/-- A byte is its two halves. -/
theorem join2_extract (b : Byte) : join2 (b.extractLsb' 4 4) (b.extractLsb' 0 4) = b := by
  ext i hi
  interval_cases i <;> simp [join2, BitVec.getLsbD_eq_getElem]

/-- A 16-bit value is its four nibbles. -/
theorem join4_extract (w : Word) :
    join4 (w.extractLsb' 12 4) (w.extractLsb' 8 4) (w.extractLsb' 4 4) (w.extractLsb' 0 4) = w := by
  ext i hi
  interval_cases i <;> simp [join4, BitVec.getLsbD_eq_getElem]

/-- Reading back a two-digit field (30_encoding.md R70). -/
@[simp] theorem val2_hex2 (b : Byte) : val2 (hex2 b) = some b := by
  rw [hex2, val2_of_hexval (hexval_hexchar _) (hexval_hexchar _)]
  rw [join2_extract]

/-- Reading back a four-digit field (30_encoding.md R70). -/
@[simp] theorem val4_hex4 (w : Word) : val4 (hex4 w) = some w := by
  rw [hex4, val4_of_hexval (hexval_hexchar _) (hexval_hexchar _) (hexval_hexchar _) (hexval_hexchar _)]
  rw [join4_extract]

/-- A two-digit field has a value exactly when it is two hex digits. -/
theorem val2_isSome_iff (s : Bytes) : (val2 s).isSome = true ↔ s.length = 2 ∧ s.all isHex = true := by
  match s with
  | [c, d] =>
    simp only [List.length_cons, List.length_nil, List.all_cons, List.all_nil, Bool.and_true, Bool.and_eq_true, true_and,
      ← hexval_isSome]
    cases hc : hexval c <;> cases hd : hexval d <;> simp [val2, hc, hd]
  | [] => simp [val2]
  | [_] => simp [val2]
  | _ :: _ :: _ :: _ => simp [val2]

/-- A four-digit field has a value exactly when it is four hex digits. -/
theorem val4_isSome_iff (s : Bytes) : (val4 s).isSome = true ↔ s.length = 4 ∧ s.all isHex = true := by
  match s with
  | [c, d, e, f] =>
    simp only [List.length_cons, List.length_nil, List.all_cons, List.all_nil, Bool.and_true, Bool.and_eq_true, true_and,
      ← hexval_isSome]
    cases hc : hexval c <;> cases hd : hexval d <;> cases he : hexval e <;> cases hf : hexval f <;> simp [val4, hc, hd, he, hf]
  | [] => simp [val4]
  | [_] => simp [val4]
  | [_, _] => simp [val4]
  | [_, _, _] => simp [val4]
  | _ :: _ :: _ :: _ :: _ :: _ => simp [val4]

end Sys2Proof.Machine
end

