-- ==== Sys2Proof/Laws/HexCodec.lean ====
section
/-! SUPPORT. The ASCII-hex codec (41_hex_codec.md). -/

namespace Sys2Proof.Machine

@[simp] theorem hexenc_nil : hexenc [] = [] := rfl
@[simp] theorem hexenc_cons (b : Byte) (s : Bytes) : hexenc (b :: s) = hex2 b ++ hexenc s := by simp [hexenc]

theorem length_hexenc (s : Bytes) : (hexenc s).length = 2 * s.length := by
  induction s with
  | nil => rfl
  | cons b s ih => simp [ih]; omega

theorem all_isHex_hexenc (s : Bytes) : (hexenc s).all isHex = true := by
  induction s with
  | nil => rfl
  | cons b s ih => rw [hexenc_cons, List.all_append, all_isHex_hex2, ih]; rfl

/-- One pair at a time. -/
theorem hexPairs_cons_cons (c d : Byte) (s : Bytes) :
    hexPairs (c :: d :: s) = (val2 [c, d]).bind fun b => (hexPairs s).map (b :: ·) := by
  rw [hexPairs]
  cases val2 [c, d] <;> cases hexPairs s <;> rfl

theorem hexPairs_hexenc (s : Bytes) : hexPairs (hexenc s) = some s := by
  induction s with
  | nil => rfl
  | cons b s ih =>
    have hv : val2 [hexchar (b.extractLsb' 4 4), hexchar (b.extractLsb' 0 4)] = some b := val2_hex2 b
    simp [hex2, hexPairs_cons_cons, ih, hv]

/-- Pairs decode exactly when their number is whole and every byte is a hex digit. -/
theorem hexPairs_isSome_iff (s : Bytes) : (hexPairs s).isSome = true ↔ s.length % 2 = 0 ∧ s.all isHex = true := by
  match s with
  | [] => simp [hexPairs]
  | [_] => simp [hexPairs]
  | c :: d :: s =>
    have ih := hexPairs_isSome_iff s
    have hv := val2_isSome_iff [c, d]
    rw [hexPairs_cons_cons]
    simp only [List.length_cons, List.length_nil, List.all_cons, List.all_nil, Bool.and_true, true_and, Bool.and_eq_true] at hv ih ⊢
    have hmod : (s.length + 1 + 1) % 2 = s.length % 2 := by omega
    rw [hmod]
    cases hb : val2 [c, d] <;> cases hp : hexPairs s <;> simp [hb, hp] at hv ih ⊢ <;> grind

theorem length_hexPairs {s b : Bytes} (h : hexPairs s = some b) : 2 * b.length = s.length := by
  match s with
  | [] => simp [hexPairs] at h; simp [h]
  | [_] => simp [hexPairs] at h
  | c :: d :: s =>
    rw [hexPairs_cons_cons] at h
    cases hv : val2 [c, d] with
    | none => simp [hv] at h
    | some x =>
      cases hp : hexPairs s with
      | none => simp [hv, hp] at h
      | some bs =>
        have := length_hexPairs hp
        simp [hv, hp] at h
        simp [← h]; omega

/-- hexdec succeeds exactly on an even number of hex digits, and otherwise says which check failed first
(41_hex_codec.md R142). -/
theorem hexdec_cases (s : Bytes) :
    (s.length % 2 ≠ 0 ∧ hexdec s = .error (.formatError .oddLength)) ∨
    (s.length % 2 = 0 ∧ s.all isHex = false ∧ hexdec s = .error (.formatError .badHex)) ∨
    (s.length % 2 = 0 ∧ s.all isHex = true ∧ ∃ b, hexPairs s = some b ∧ hexdec s = .ok b) := by
  have hi := hexPairs_isSome_iff s
  by_cases h : s.length % 2 = 0
  · right
    cases hp : hexPairs s with
    | none => left; simp [hp, h] at hi; exact ⟨h, by simpa using hi, by simp [hexdec, h, hp]⟩
    | some b => right; simp [hp, h] at hi; exact ⟨h, by simpa using hi, b, rfl, by simp [hexdec, h, hp]⟩
  · left; exact ⟨h, by simp [hexdec, h]⟩

theorem hexdec_eq_ok_iff (s b : Bytes) : hexdec s = .ok b ↔ hexPairs s = some b := by
  have hi := hexPairs_isSome_iff s
  rcases hexdec_cases s with ⟨h, e⟩ | ⟨_, h, e⟩ | ⟨_, _, b', hp, e⟩
  · rw [e]; constructor
    · simp
    · intro hp; simp [hp] at hi; omega
  · rw [e]; constructor
    · simp
    · intro hp; rw [hp] at hi; simp [h] at hi
  · rw [e, hp]; simp

end Sys2Proof.Machine
end

