-- ==== Sys2Proof/Laws/Frame.lean ====
section
/-! SUPPORT. The frame's layout (30_encoding.md R72) and the parts of FRAME_DEC (42_frame.md R170). -/

namespace Sys2Proof.Machine

/-- The twelve header characters of given field values (30_encoding.md R72). -/
def headerText (h : Hdr) : Bytes := hex2 h.ver ++ hex2 h.adr ++ hex2 h.cid1 ++ hex2 h.cid2 ++ hex4 h.lenf

@[simp] theorem length_headerText (h : Hdr) : (headerText h).length = 12 := by simp [headerText]

theorem frameData_eq (adr cmd : Byte) (t : Bytes) :
    frameData adr cmd t = headerText ⟨verValue, adr, cid1Value, cmd, lenfield (BitVec.ofNat 12 t.length)⟩ ++ t := rfl

@[simp] theorem length_frameData (adr cmd : Byte) (t : Bytes) : (frameData adr cmd t).length = 12 + t.length := by
  simp [frameData_eq]

@[simp] theorem length_wrapFrame (d : Bytes) : (wrapFrame d).length = 6 + d.length := by
  simp [wrapFrame]; omega

/-- Reading back the header characters. -/
theorem headerOf_headerText (h : Hdr) : headerOf (headerText h) = some h := by
  have e : headerText h = [hexchar (h.ver.extractLsb' 4 4), hexchar (h.ver.extractLsb' 0 4),
      hexchar (h.adr.extractLsb' 4 4), hexchar (h.adr.extractLsb' 0 4),
      hexchar (h.cid1.extractLsb' 4 4), hexchar (h.cid1.extractLsb' 0 4),
      hexchar (h.cid2.extractLsb' 4 4), hexchar (h.cid2.extractLsb' 0 4)] ++ hex4 h.lenf := rfl
  have h0 : seg (headerText h) 0 2 = hex2 h.ver := by rw [e]; rfl
  have h2 : seg (headerText h) 2 2 = hex2 h.adr := by rw [e]; rfl
  have h4 : seg (headerText h) 4 2 = hex2 h.cid1 := by rw [e]; rfl
  have h6 : seg (headerText h) 6 2 = hex2 h.cid2 := by rw [e]; rfl
  have h8 : seg (headerText h) 8 4 = hex4 h.lenf := by rw [e]; rfl
  simp [headerOf, h0, h2, h4, h6, h8]

/-- The header decodes exactly when all its twelve characters are hex digits (42_frame.md R170 step 7). -/
theorem headerOf_isSome_iff {t : Bytes} (ht : t.length = 12) : (headerOf t).isSome = true ↔ t.all isHex = true := by
  match t, ht with
  | [c0, c1, c2, c3, c4, c5, c6, c7, c8, c9, c10, c11], _ =>
    have e (x y : Byte) := val2_isSome_iff [x, y]
    have e4 := val4_isSome_iff [c8, c9, c10, c11]
    have a := e c0 c1
    have b := e c2 c3
    have c := e c4 c5
    have d := e c6 c7
    have s0 : seg [c0, c1, c2, c3, c4, c5, c6, c7, c8, c9, c10, c11] 0 2 = [c0, c1] := rfl
    have s2 : seg [c0, c1, c2, c3, c4, c5, c6, c7, c8, c9, c10, c11] 2 2 = [c2, c3] := rfl
    have s4 : seg [c0, c1, c2, c3, c4, c5, c6, c7, c8, c9, c10, c11] 4 2 = [c4, c5] := rfl
    have s6 : seg [c0, c1, c2, c3, c4, c5, c6, c7, c8, c9, c10, c11] 6 2 = [c6, c7] := rfl
    have s8 : seg [c0, c1, c2, c3, c4, c5, c6, c7, c8, c9, c10, c11] 8 4 = [c8, c9, c10, c11] := rfl
    simp only [List.length_cons, List.length_nil, List.all_cons, List.all_nil, Bool.and_true, Bool.and_eq_true, true_and]
      at a b c d e4 ⊢
    simp only [headerOf, s0, s2, s4, s6, s8]
    cases h0 : val2 [c0, c1] <;> cases h2 : val2 [c2, c3] <;> cases h4 : val2 [c4, c5] <;> cases h6 : val2 [c6, c7] <;>
      cases h8 : val4 [c8, c9, c10, c11] <;> simp_all

/-- The fields of a decoded header are the values of its parts (42_frame.md R172). -/
theorem headerOf_eq_some {t : Bytes} {h : Hdr} (e : headerOf t = some h) :
    val2 (seg t 0 2) = some h.ver ∧ val2 (seg t 2 2) = some h.adr ∧ val2 (seg t 4 2) = some h.cid1 ∧
      val2 (seg t 6 2) = some h.cid2 ∧ val4 (seg t 8 4) = some h.lenf := by
  unfold headerOf at e
  cases h0 : val2 (seg t 0 2) <;> cases h2 : val2 (seg t 2 2) <;> cases h4 : val2 (seg t 4 2) <;>
    cases h6 : val2 (seg t 6 2) <;> cases h8 : val4 (seg t 8 4) <;> simp [h0, h2, h4, h6, h8] at e
  simp [← e]

/-- Steps 1 to 5 of FRAME_DEC on a sequence with its delimiters and a checksum field of four bytes: only the checksum field
decides whether the data is looked at (42_frame.md R170). -/
theorem frameDecResult_delimited (d ck : Bytes) (hck : ck.length = 4) :
    frameDecResult (soi :: d ++ ck ++ [eoi]) =
      match val4 ck with
      | none => .error (.formatError .badHexChecksum)
      | some v => if chk16 d ≠ v then .error (.checksumMismatch .frame) else dataDecResult d := by
  have hn : (soi :: d ++ ck ++ [eoi]).length = d.length + 6 := by simp [hck]
  have h0 : (soi :: d ++ ck ++ [eoi])[0]? = some soi := rfl
  have hl : (soi :: d ++ ck ++ [eoi])[d.length + 6 - 1]? = some eoi := by
    rw [List.getElem?_append_right (by simp [hck])]
    simp [hck]
  have hm : d.length + 6 - 2 = d.length + 4 := by omega
  have hb : seg (soi :: d ++ ck ++ [eoi]) 1 (d.length + 4) = d ++ ck := by
    have := seg_append [soi] (d ++ ck) [eoi] 1 (d.length + 4) rfl (by simp [hck])
    simpa using this
  have hc : seg (d ++ ck) d.length 4 = ck := by
    have := seg_append d ck [] d.length 4 rfl hck
    simpa using this
  have hd : seg (d ++ ck) 0 d.length = d := by simp [seg]
  have h4 : ¬ d.length + 4 < 4 := by omega
  have h2 : ¬ d.length + 6 < 2 := by omega
  cases hv : val4 ck <;>
    simp only [frameDecResult, hn, h0, hl, hm, hb, h4, h2, if_false, ne_eq, not_true_eq_false, or_self, Nat.add_sub_cancel, hc,
      hd, hv, Nat.add_eq_zero_iff, and_false, OfNat.ofNat_ne_zero]

/-- Any sequence with both delimiters and room for a checksum is data, a checksum field and the delimiters. -/
theorem delimited_of_ends {inp : Bytes} (h6 : 6 ≤ inp.length) (h0 : inp[0]? = some soi)
    (hl : inp[inp.length - 1]? = some eoi) :
    inp = soi :: seg inp 1 (inp.length - 6) ++ seg inp (inp.length - 5) 4 ++ [eoi] := by
  apply List.ext_getElem?
  intro k
  have e1 : (seg inp 1 (inp.length - 6)).length = inp.length - 6 := length_seg_of_le (by omega)
  have e2 : (seg inp (inp.length - 5) 4).length = 4 := length_seg_of_le (by omega)
  rcases Nat.lt_trichotomy k (inp.length - 1) with hk | hk | hk
  · rw [List.getElem?_append_left (by simp [e1, e2]; omega)]
    cases k with
    | zero => simpa using h0
    | succ k =>
      by_cases hk' : k < inp.length - 6
      · rw [List.getElem?_append_left (by simp [e1]; omega), List.getElem?_cons_succ, getElem?_seg, if_pos hk']
        congr 1; omega
      · rw [List.getElem?_append_right (by simp [e1]; omega), getElem?_seg]
        simp only [List.length_cons, e1]
        rw [if_pos (by omega)]
        congr 1; omega
  · subst hk
    rw [hl, List.getElem?_append_right (by simp [e1, e2]; omega)]
    simp [e1, e2]
    rw [show inp.length - 1 - (inp.length - 6 + 1 + 4) = 0 by omega]; rfl
  · rw [List.getElem?_eq_none (by omega), List.getElem?_eq_none (by simp [e1, e2]; omega)]

/-- What hexdec can report (41_hex_codec.md R142). -/
theorem hexdec_error {t : Bytes} {e : Err} (h : hexdec t = .error e) :
    e = .formatError .oddLength ∨ e = .formatError .badHex := by
  rcases hexdec_cases t with ⟨_, h'⟩ | ⟨_, _, h'⟩ | ⟨_, _, b, _, h'⟩ <;> rw [h'] at h <;> simp at h <;> simp [← h]

/-- What HEX_DEC can report (41_hex_codec.md R143). -/
theorem hexDecResult_error {t : Bytes} {e : Err} (h : hexDecResult t = .error e) :
    e = .formatError .oddLength ∨ e = .formatError .badHex := by
  unfold hexDecResult at h
  split at h
  · rename_i e' he; simp at h; subst h; exact hexdec_error he
  · simp at h

/-- What steps 6 to 11 of FRAME_DEC can report. -/
theorem dataDecResult_error {d : Bytes} {e : Err} (h : dataDecResult d = .error e) :
    e ∈ [Err.incompleteFrame .shortHeader, .formatError .badHexHeader, .checksumMismatch .length,
      .formatError .lengthMismatch, .formatError .oddLength, .formatError .badHex] := by
  unfold dataDecResult at h
  split at h
  · simp at h; simp [← h]
  · split at h
    · simp at h; simp [← h]
    · simp only at h
      split at h
      · simp at h; simp [← h]
      · split at h
        · simp at h; simp [← h]
        · split at h
          · rename_i he; simp at h; subst h
            rcases hexdec_error he with h | h <;> simp [h]
          · simp at h

/-- What FRAME_DEC can report (60_exceptions.md R201). -/
theorem frameDecResult_error {inp : Bytes} {e : Err} (h : frameDecResult inp = .error e) :
    e ∈ [Err.formatError .noStart, .formatError .noEnd, .incompleteFrame .noChecksum, .formatError .badHexChecksum,
      .checksumMismatch .frame, .incompleteFrame .shortHeader, .formatError .badHexHeader, .checksumMismatch .length,
      .formatError .lengthMismatch, .formatError .oddLength, .formatError .badHex] := by
  unfold frameDecResult at h
  simp only at h
  split at h
  · simp at h; simp [← h]
  · split at h
    · simp at h; simp [← h]
    · split at h
      · simp at h; simp [← h]
      · split at h
        · simp at h; simp [← h]
        · split at h
          · simp at h; simp [← h]
          · have := dataDecResult_error h
            simp at this ⊢; tauto

/-- What steps 6 to 11 of FRAME_DEC have found when none of them fails. -/
theorem dataDecResult_ok {d : Bytes} {p : Payload} (h : dataDecResult d = .ok p) :
    ∃ b hd, p = ⟨none, some b, some hd⟩ ∧ 12 ≤ d.length ∧ headerOf (seg d 0 12) = some hd ∧
      lchksum hd.lenf = lchk (lenid hd.lenf) ∧ d.length - 12 = (lenid hd.lenf).toNat ∧
      hexdec (seg d 12 (d.length - 12)) = .ok b := by
  unfold dataDecResult at h
  split at h
  · simp at h
  · rename_i h12
    split at h
    · simp at h
    · rename_i hd hh
      simp only at h
      split at h
      · simp at h
      · split at h
        · simp at h
        · rename_i h1 h2
          split at h
          · simp at h
          · rename_i b hb; simp at h
            refine ⟨b, hd, h.symm, by omega, hh, by simpa using h1, ?_, hb⟩
            rw [length_seg] at h2; omega

/-- What an accepted IN is: data with its checksum between the delimiters. -/
theorem frameDecResult_ok {inp : Bytes} {p : Payload} (h : frameDecResult inp = .ok p) :
    ∃ d ck, inp = soi :: d ++ ck ++ [eoi] ∧ ck.length = 4 ∧ val4 ck = some (chk16 d) ∧ dataDecResult d = .ok p ∧
      d = seg inp 1 (inp.length - 6) ∧ ck = seg inp (inp.length - 5) 4 := by
  have h' := h
  unfold frameDecResult at h
  simp only at h
  split at h
  · simp at h
  · rename_i h1
    split at h
    · simp at h
    · rename_i h2
      split at h
      · simp at h
      · rename_i h3
        simp at h1 h2
        have hl : (seg inp (inp.length - 5) 4).length = 4 := length_seg_of_le (by omega)
        have e := delimited_of_ends (inp := inp) (by omega) h1.2 h2.2
        rw [e, frameDecResult_delimited _ _ hl] at h'
        refine ⟨_, _, e, hl, ?_, ?_, rfl, rfl⟩
        · split at h'
          · simp at h'
          · rename_i v hv
            split at h'
            · simp at h'
            · rename_i hc; simp at hc; rw [hv, hc]
        · split at h'
          · simp at h'
          · split at h'
            · simp at h'
            · exact h'

/-- FRAME_DEC of wrapped data looks at the data: the checksum holds. -/
theorem frameDecResult_wrapFrame (d : Bytes) : frameDecResult (wrapFrame d) = dataDecResult d := by
  have h := frameDecResult_delimited d (hex4 (chk16 d)) rfl
  rw [val4_hex4] at h
  simpa [wrapFrame] using h

end Sys2Proof.Machine
end

