-- ==== Sys2Proof/Laws/State.lean ====
section
/-! SUPPORT. What each update of State leaves in each field. -/

namespace Sys2Proof.Machine

@[simp] theorem State.reset_nInMax : State.reset.nInMax = Config.nInMax := rfl
@[simp] theorem State.reset_inFlight : State.reset.inFlight = none := rfl
@[simp] theorem State.reset_response : State.reset.response = none := rfl

@[simp] theorem State.present_nInMax (s : State) (q : Request) : (s.present q).nInMax = s.nInMax := rfl
@[simp] theorem State.present_inFlight (s : State) (q : Request) : (s.present q).inFlight = some q := rfl
@[simp] theorem State.present_response (s : State) (q : Request) : (s.present q).response = none := rfl

@[simp] theorem State.succeed_nInMax (s : State) (p : Payload) : (s.succeed p).nInMax = s.nInMax := rfl
@[simp] theorem State.succeed_inFlight (s : State) (p : Payload) : (s.succeed p).inFlight = none := rfl
@[simp] theorem State.succeed_response (s : State) (p : Payload) :
    (s.succeed p).response = some ⟨0#3, 0#4, p.r, p.out, p.hdr⟩ := rfl

@[simp] theorem State.raise_nInMax (s : State) (e : Err) : (s.raise e).nInMax = s.nInMax := rfl
@[simp] theorem State.raise_inFlight (s : State) (e : Err) : (s.raise e).inFlight = none := rfl
@[simp] theorem State.raise_response (s : State) (e : Err) :
    (s.raise e).response = some ⟨e.status, e.sub, none, none, none⟩ := rfl

@[simp] theorem State.answered_nInMax (s : State) (p : Response) : (s.answered p).nInMax = s.nInMax := rfl
@[simp] theorem State.answered_inFlight (s : State) (p : Response) : (s.answered p).inFlight = none := rfl
@[simp] theorem State.answered_response (s : State) (p : Response) : (s.answered p).response = some p := rfl

@[simp] theorem State.assertReset_nInMax (s : State) : s.assertReset.nInMax = s.nInMax := rfl
@[simp] theorem State.assertReset_inFlight (s : State) : s.assertReset.inFlight = none := rfl
@[simp] theorem State.assertReset_response (s : State) : s.assertReset.response = none := rfl

theorem State.succeed_eq_answered (s : State) (p : Payload) :
    s.succeed p = s.answered ⟨0#3, 0#4, p.r, p.out, p.hdr⟩ := rfl

theorem State.raise_eq_answered (s : State) (e : Err) :
    s.raise e = s.answered ⟨e.status, e.sub, none, none, none⟩ := rfl

/-- Putting a request of a table word in flight changes nothing but the request port. -/
theorem State.withFetchWord_eq_present (s : State) (nbits w : Nat) (h : 4 ≤ nbits) :
    s.withFetchWord nbits w = s.present ⟨BitVec.ofNat 4 w, 0#16, []⟩ := by
  simp [State.withFetchWord, requestOfSelect, Nat.not_lt.mpr h]

end Sys2Proof.Machine
end

