-- ==== Sys2Proof/Laws/Status.lean ====
section
/-! SUPPORT. The status codes: every error has a code of its own, none is the code of success. -/

namespace Sys2Proof.Machine

theorem Err.mem_all (e : Err) : e ∈ Err.all := by
  rcases e with c | c | c | c | _ | _ <;> (try cases c) <;> decide

theorem Err.status_ne_ok (e : Err) : e.status ≠ 0#3 := by
  rcases e with c | c | c | c | _ | _ <;> (try cases c) <;> decide

theorem Err.ofCodes_of_error (e : Err) : Err.ofCodes e.status e.sub = .ok (some e) := by
  rcases e with c | c | c | c | _ | _ <;> (try cases c) <;> rfl

theorem Err.codes_injective {e e' : Err} (hs : e.status = e'.status) (hb : e.sub = e'.sub) : e = e' := by
  have h := Err.ofCodes_of_error e
  rw [hs, hb, Err.ofCodes_of_error e'] at h
  simpa using h.symm

end Sys2Proof.Machine
end

