-- ==== Sys2Proof/Laws/Ops.lean ====
section
/-! SUPPORT. What the shared operations can do, and what every instruction does with them. -/

namespace Sys2Proof.Machine

@[simp] theorem State.deliver_ok (s : State) (p : Payload) : s.deliver (.ok p) = .next (s.succeed p) := rfl
@[simp] theorem State.deliver_error (s : State) (e : Err) : s.deliver (.error e) = .next (s.raise e) := rfl

/-- Ending an operation answers a next state, in one of two ways (20_memory.md R48). -/
theorem State.deliver_cases (s : State) (res : Except Err Payload) :
    (∃ p, res = .ok p ∧ s.deliver res = .next (s.succeed p)) ∨ (∃ e, res = .error e ∧ s.deliver res = .next (s.raise e)) := by
  cases res with
  | ok p => exact .inl ⟨p, rfl, rfl⟩
  | error e => exact .inr ⟨e, rfl, rfl⟩

/-- Every legal N_IN_MAX admits the longest frame of the layout (00_scope.md R7). -/
theorem InLimit.admits_of_le (lim : InLimit) {n : Nat} (h : n ≤ 4113) : lim.admits n = true := by
  simp [InLimit.admits, h]

@[simp] theorem InLimit.admits_unbounded (n : Nat) : InLimit.unbounded.admits n = true := by
  simp [InLimit.admits]

theorem InLimit.admits_bytes_iff (extra n : Nat) : (InLimit.bytes extra).admits n = true ↔ n ≤ 4113 + extra := by
  simp [InLimit.admits]; omega

theorem checkInput_of_admits {lim : InLimit} {inp : Bytes} (h : lim.admits inp.length = true) (res : Except Err Payload) :
    checkInput lim inp res = res := by
  simp [checkInput, h]

theorem checkInput_of_not_admits {lim : InLimit} {inp : Bytes} (h : lim.admits inp.length = false)
    (res : Except Err Payload) : checkInput lim inp res = .error .inputOverflow := by
  simp [checkInput, h]

/-- What an instruction computes of its operands, the interface checks before it (60_exceptions.md R205). -/
def instrResult (lim : InLimit) : Instr → Except Err Payload
  | .frameCsum _ inp => checkInput lim inp (frameCsumResult inp)
  | .csumVfy a inp => checkInput lim inp (csumVfyResult a inp)
  | .lenEnc a inp => checkInput lim inp (lenEncResult a)
  | .lenDec a inp => checkInput lim inp (lenDecResult a)
  | .hexEnc _ inp => checkInput lim inp (hexEncResult inp)
  | .hexDec _ inp => checkInput lim inp (hexDecResult inp)
  | .frameEnc adr cid2 inp => checkInput lim inp (frameEncResult adr cid2 inp)
  | .frameDec _ inp => checkInput lim inp (frameDecResult inp)
  | .reserved0 _ _ => .error .illegalOp
  | .reserved9 _ _ => .error .illegalOp
  | .reservedA _ _ => .error .illegalOp
  | .reservedB _ _ => .error .illegalOp
  | .reservedC _ _ => .error .illegalOp
  | .reservedD _ _ => .error .illegalOp
  | .reservedE _ _ => .error .illegalOp
  | .reservedF _ _ => .error .illegalOp

/-- Every instruction delivers what it computes of its operands and N_IN_MAX alone. -/
theorem exec_eq_deliver (i : Instr) (s : State) : exec i s = s.deliver (instrResult s.nInMax i) := by
  cases i <;> rfl

/-- Every instruction answers a next state in which only the port has changed, with a response that depends on the instruction
and N_IN_MAX alone. -/
theorem exec_answered (i : Instr) (s : State) :
    ∃ p, ∀ s' : State, s'.nInMax = s.nInMax → exec i s' = .next (s'.answered p) := by
  cases h : instrResult s.nInMax i with
  | ok p => exact ⟨_, fun s' e => by rw [exec_eq_deliver, e, h]; rfl⟩
  | error p => exact ⟨_, fun s' e => by rw [exec_eq_deliver, e, h]; rfl⟩

theorem step_idle {s : State} (h : s.inFlight = none) : step s = .next s := by
  simp [step, h]

theorem step_of_inFlight {s : State} {q : Request} (h : s.inFlight = some q) : step s = exec (decode q) s := by
  simp [step, h]

/-- A transaction of an idle block, from what the instruction answers for the presented request. -/
theorem State.transact_eq_answered {s : State} {q : Request} {p : Response} (h : s.inFlight = none)
    (e : exec (decode q) (s.present q) = .next ((s.present q).answered p)) : s.transact q = .next (s.answered p) := by
  simp only [State.transact, State.issue, h]
  rw [step_of_inFlight (State.present_inFlight s q), e]
  simp [State.answered, State.present]

end Sys2Proof.Machine
end

