-- ==== Sys2Proof/Laws/PerInstr.lean ====
section
/-! SUPPORT. Per instruction: the family DecodeEncode says that decoding the request of an instruction gives it back, with every
operand (30_encoding.md R61, R63). -/

namespace Sys2Proof.Laws.DecodeEncode

/-- The request of an instruction decodes to it. -/
def Statement (i : Instr) : Prop := decode (encode i) = i

theorem frameEnc (adr cid2 : Byte) (inp : Bytes) : Statement (.frameEnc adr cid2 inp) := by
  have h1 : ((cid2.setWidth 16 <<< 8) ||| adr.setWidth 16).extractLsb' 0 8 = adr := by
    ext i hi
    interval_cases i <;> simp [BitVec.getLsbD_eq_getElem]
  have h2 : ((cid2.setWidth 16 <<< 8) ||| adr.setWidth 16).extractLsb' 8 8 = cid2 := by
    ext i hi
    interval_cases i <;> simp [BitVec.getLsbD_eq_getElem]
  exact congrArg₂ (Instr.frameEnc · · inp) h1 h2

theorem frameCsum (a : Word) (inp : Bytes) : Statement (.frameCsum a inp) := rfl
theorem csumVfy (a : Word) (inp : Bytes) : Statement (.csumVfy a inp) := rfl
theorem lenEnc (a : Word) (inp : Bytes) : Statement (.lenEnc a inp) := rfl
theorem lenDec (a : Word) (inp : Bytes) : Statement (.lenDec a inp) := rfl
theorem hexEnc (a : Word) (inp : Bytes) : Statement (.hexEnc a inp) := rfl
theorem hexDec (a : Word) (inp : Bytes) : Statement (.hexDec a inp) := rfl
theorem frameDec (a : Word) (inp : Bytes) : Statement (.frameDec a inp) := rfl
theorem reserved0 (a : Word) (inp : Bytes) : Statement (.reserved0 a inp) := rfl
theorem reserved9 (a : Word) (inp : Bytes) : Statement (.reserved9 a inp) := rfl
theorem reservedA (a : Word) (inp : Bytes) : Statement (.reservedA a inp) := rfl
theorem reservedB (a : Word) (inp : Bytes) : Statement (.reservedB a inp) := rfl
theorem reservedC (a : Word) (inp : Bytes) : Statement (.reservedC a inp) := rfl
theorem reservedD (a : Word) (inp : Bytes) : Statement (.reservedD a inp) := rfl
theorem reservedE (a : Word) (inp : Bytes) : Statement (.reservedE a inp) := rfl
theorem reservedF (a : Word) (inp : Bytes) : Statement (.reservedF a inp) := rfl

end Sys2Proof.Laws.DecodeEncode
end

