-- ==== Sys2Proof/Tests/Slice0.lean ====
section
/-! SUPPORT. Tests. Expected results are from spec/95_test_vectors.md (the vector's id is in the name or the comment), from
spec/30_encoding.md's tables and from the operation rules' examples. The witnesses show states and operands that meet the
hypotheses of the statements of Certificates/Slice0/Obligations.lean. -/

open Sys2Proof Sys2Proof.Machine

namespace Sys2Proof.Tests

/-- The ASCII codes of a text (30_encoding.md R66). -/
def ascii (t : String) : Bytes := t.toList.map fun c => BitVec.ofNat 8 c.toNat

/-- The response of a block with N_IN_MAX = 4113. -/
def reply (i : Instr) : Option Response := answer (.bytes 0) (encode i)

/-- An idle block with N_IN_MAX = 4113. -/
def idle : State := ⟨.bytes 0, none, none⟩

/-- A block with N_IN_MAX = 4113 and a request in flight. -/
def busy (q : Request) : State := ⟨.bytes 0, some q, none⟩

/-- The frame of V-F1. -/
def frameF1 : Bytes := ascii "~20024642E00202FD33\r"

/-! WellFormed refuses an ill-formed term for each of its checks. -/

theorem test_reserved_is_ill_formed : Instr.wellFormed .unbounded (.reserved9 0 []) = false := by decide

theorem test_long_input_is_ill_formed (inp : Bytes) (h : inp.length = 4114) :
    Instr.wellFormed (.bytes 0) (.lenEnc 0 inp) = false := by
  simp [Instr.wellFormed, Instr.isReserved, Instr.input, InLimit.admits, h]

theorem test_written_a_of_17_bits_is_ill_formed : AsmLine.wellFormed ⟨.csumVfy, some 0x10000, none⟩ = false := by decide

theorem test_written_value_256_is_ill_formed : AsmLine.wellFormed ⟨.hexEnc, none, some (.listed [256])⟩ = false := by decide

theorem test_written_non_ascii_is_ill_formed :
    AsmLine.wellFormed ⟨.hexDec, none, some (.quoted [Char.ofNat 0x80])⟩ = false := by decide

theorem test_well_formed_terms : Instr.wellFormed (.bytes 0) (.frameDec 0 frameF1) = true ∧
    AsmLine.wellFormed ⟨.frameEnc, some 0xFFFF, some (.listed [255])⟩ = true := by decide

/-! Decoding, by words written out from 30_encoding.md R61 and R63. -/

theorem test_decode_operations : [0b0001, 0b0010, 0b0011, 0b0100, 0b0101, 0b0110, 0b1000].map (decodeTableWord 4) =
    [some (.frameCsum 0 []), some (.csumVfy 0 []), some (.lenEnc 0 []), some (.lenDec 0 []), some (.hexEnc 0 []),
      some (.hexDec 0 []), some (.frameDec 0 [])] := by decide

theorem test_decode_reserved : [0b0000, 0b1001, 0b1010, 0b1011, 0b1100, 0b1101, 0b1110, 0b1111].map (decodeTableWord 8) =
    [some (.reserved0 0 []), some (.reserved9 0 []), some (.reservedA 0 []), some (.reservedB 0 []),
      some (.reservedC 0 []), some (.reservedD 0 []), some (.reservedE 0 []), some (.reservedF 0 [])] := by decide

theorem test_decode_frame_enc_splits_a : decode ⟨0b0111#4, 0b0100001000000010#16, ascii "02"⟩ =
    .frameEnc 0x02#8 0x42#8 (ascii "02") := by decide

theorem test_decode_short_word_is_refused : decodeTableWord 3 1 = none := by decide

theorem test_opcode_rows_do_not_overlap : opcodeTable.Pairwise fun x y => x.pattern &&& y.mask ≠ y.pattern &&& x.mask := by
  decide

theorem test_step_runs_table_word_after_reset : step (State.reset.withFetchWord 8 0b0101) =
    .next (State.reset.answered (okResponse none (some []) none)) := rfl

/-! One or two vectors per instruction. -/

theorem test_frame_csum_V_C5 : reply (.frameCsum 0 (ascii "20024642E00202")) =
    some (okResponse (some 0xFD33#16) none none) := by decide

theorem test_frame_csum_V_C6_wraps_to_zero : reply (.frameCsum 0 (List.replicate 257 0xFF#8 ++ [0x01#8])) =
    some (okResponse (some 0x0000#16) none none) := by
  set_option maxRecDepth 100000 in decide

theorem test_csum_vfy_V_K2 : reply (.csumVfy 0xFFFF#16 [0x01#8]) = some (okResponse none none none) := by decide
theorem test_csum_vfy_V_K5 : reply (.csumVfy 0xFD34#16 (ascii "20024642E00202")) = some (errResponse 2#3 1#4) := by decide
theorem test_len_enc_V_L9 : reply (.lenEnc 0x0088#16 []) = some (okResponse (some 0x0088#16) none none) := by decide
theorem test_len_enc_V_L12 : reply (.lenEnc 0x0800#16 []) = some (okResponse (some 0x8800#16) none none) := by decide
theorem test_len_dec_V_D9 : reply (.lenDec 0x3FFF#16 []) = some (okResponse (some 0x0FFF#16) none none) := by decide
theorem test_len_dec_V_D11 : reply (.lenDec 0xE00A#16 []) = some (errResponse 2#3 2#4) := by decide

theorem test_hex_enc_V_H5 : reply (.hexEnc 0 [0x12#8, 0xAB#8, 0xCD#8]) = some (okResponse none (some (ascii "12ABCD")) none) := by
  decide

theorem test_hex_dec_V_X5 : reply (.hexDec 0 (ascii "12abCD")) =
    some (okResponse none (some [0x12#8, 0xAB#8, 0xCD#8]) none) := by decide

theorem test_hex_dec_V_X7_odd_first : reply (.hexDec 0 (ascii "G")) = some (errResponse 1#3 6#4) := by decide

theorem test_frame_enc_V_E12 : reply (.frameEnc 0x02#8 0x42#8 (ascii "0123456789")) =
    some (okResponse none (some (ascii "~20024642600A0123456789FB88\r")) none) := by decide

theorem test_frame_enc_V_E17_character_first : reply (.frameEnc 0x02#8 0x42#8 (ascii "G")) = some (errResponse 4#3 2#4) := by
  decide

theorem test_frame_dec_V_F4 : reply (.frameDec 0 (ascii "~20024600800811223344FC0E\r")) =
    some (okResponse none (some [0x11#8, 0x22#8, 0x33#8, 0x44#8]) (some ⟨0x20#8, 0x02#8, 0x46#8, 0x00#8, 0x8008#16⟩)) := by
  decide

theorem test_frame_dec_V_F7_lower_case : reply (.frameDec 0 (ascii "~20024642e002ffFCA9\r")) =
    some (okResponse none (some [0xFF#8]) (some ⟨0x20#8, 0x02#8, 0x46#8, 0x42#8, 0xE002#16⟩)) := by decide

/-- V-I1, V-I2 and the other reserved opcodes. -/
theorem test_reserved_opcodes : [Instr.reserved0 0 [], .reserved9 0 [], .reservedA 0 [], .reservedB 0 [], .reservedC 0 [],
    .reservedD 0 [], .reservedE 0 [], .reservedF 0xFFFF#16 [1#8]].map reply = List.replicate 8 (some (errResponse 5#3 0#4)) := by
  decide

/-- V-I9: the length of IN is checked even though LEN_ENC does not read it. -/
theorem test_len_enc_V_I9_oversize (inp : Bytes) (h : inp.length = 4114) :
    exec (.lenEnc 0x1000#16 inp) idle = .next (idle.answered (errResponse 6#3 0#4)) := by
  simp [exec, execLenEnc, checkInput, InLimit.admits, idle, h]; rfl

/-! Assembler text (30_encoding.md R65, 95_test_vectors.md part 3). -/

theorem test_assemble_P1_step_9 : assembleText "FRAME_ENC  A=0x4202 IN=\"02\"".toList =
    some (encode (.frameEnc 0x02#8 0x42#8 (ascii "02"))) := by decide

theorem test_assemble_list_and_escape : assembleText "HEX_ENC IN=[0xE0, 0x02]".toList = some ⟨0x5#4, 0#16, [0xE0#8, 0x02#8]⟩ ∧
    assembleText "HEX_DEC IN=\"~\\r\"".toList = some ⟨0x6#4, 0#16, [0x7E#8, 0x0D#8]⟩ ∧
    assembleText "CSUM_VFY A=0x10000".toList = none := by decide

theorem test_encoded_text_P4_step_4 : (encodedText ⟨0x3#4, 0x1000#16, []⟩).drop 1 = "OP=0x3, A=0x1000, IN=0 bytes".toList ++
    [Char.ofNat 0x7D] := by decide

/-! The host's port (70_reset_and_hazards.md R239, 00_scope.md R12). -/

theorem test_reading_absent_field_faults : (idle.answered (okResponse (some 7#16) none none)).readOut =
    .error (.absentField .out) := by decide

theorem test_program_of_two_requests : serve [encode (.lenEnc 2#16 []), encode (.hexDec 0 (ascii "0"))] idle =
    .next ([okResponse (some 0xE002#16) none none, errResponse 1#3 6#4], idle.answered (errResponse 1#3 6#4)) := rfl

/-! Witnesses: states and operands that meet the hypotheses of the statements. -/

theorem witness_ResetLeavesNothingToRead : (State.reset = State.reset ∨ State.reset = idle.assertReset) ∧
    (idle.assertReset = State.reset ∨ idle.assertReset = idle.assertReset) := ⟨.inl rfl, .inr rfl⟩

theorem witness_ReissuedRequestAfterResetGetsItsAnswer : (busy ⟨0x5#4, 0, [0x0A#8]⟩).inFlight = some ⟨0x5#4, 0, [0x0A#8]⟩ := rfl

theorem witness_EveryStepKeepsStateLegal : (busy (encode (.frameDec 0 frameF1))).Legal ∧
    ∃ t, step (busy (encode (.frameDec 0 frameF1))) = .next t ∧ t.response.isSome = true :=
  ⟨⟨by simp [busy], by simp [busy]⟩, _, rfl, rfl⟩

theorem witness_HostMovesKeepStateLegal : idle.Legal ∧ (∃ t, idle.issue (encode (.hexEnc 0 [0x0A#8])) = .next t) ∧
    ∃ t, idle.transact (encode (.hexEnc 0 [0x0A#8])) = .next t :=
  ⟨⟨by simp [idle], by simp [idle]⟩, ⟨_, rfl⟩, _, rfl⟩

theorem witness_StepRunsDecodedInstruction : (busy ⟨0xF#4, 0, []⟩).inFlight = some ⟨0xF#4, 0, []⟩ ∧
    decodeTableWord 8 0x8 = some (.frameDec 0 []) := ⟨rfl, by decide⟩

theorem witness_IdleBlockStaysAsItIs : idle.inFlight = none := rfl

theorem witness_HostHasNoMoveWhileRequestInFlight : (busy ⟨0x1#4, 0, []⟩).inFlight = some ⟨0x1#4, 0, []⟩ := rfl

theorem witness_EveryIssuedRequestIsAnswered : (idle.answered (errResponse 5#3 0#4)).inFlight = none := rfl

theorem witness_EqualRequestsGetEqualResponses : (busy ⟨0x3#4, 1#16, []⟩).nInMax = (idle.present ⟨0x3#4, 1#16, []⟩).nInMax ∧
    (busy ⟨0x3#4, 1#16, []⟩).inFlight = some ⟨0x3#4, 1#16, []⟩ ∧
    (idle.present ⟨0x3#4, 1#16, []⟩).inFlight = some ⟨0x3#4, 1#16, []⟩ := ⟨rfl, rfl, rfl⟩

theorem witness_ProgramResponsesAreThoseOfEachRequestAlone : idle.inFlight = none := rfl

theorem witness_LengthFieldIsTwoBytesHighFirst : val2 [0x45#8, 0x30#8] = some 0xE0#8 ∧ val2 [0x30#8, 0x32#8] = some 0x02#8 := by
  decide

theorem witness_AssemblerWritesExactlyTheFittingRequests :
    assemble ⟨.hexEnc, some 0xFFFF, some (.listed [0, 255])⟩ = some ⟨0x5#4, 0xFFFF#16, [0x00#8, 0xFF#8]⟩ ∧
    assemble ⟨.hexDec, none, some (.quoted ['0', 'A'])⟩ = some ⟨0x6#4, 0#16, [0x30#8, 0x41#8]⟩ ∧
    assemble ⟨.lenEnc, some 0, none⟩ = some ⟨0x3#4, 0#16, []⟩ := by decide

theorem witness_ReservedOpcodesAnswerIllegalOp :
    Instr.reservedF 0 [] ∈ [Instr.reserved0 0 [], .reserved9 0 [], .reservedA 0 [], .reservedB 0 [], .reservedC 0 [],
      .reservedD 0 [], .reservedE 0 [], .reservedF 0 []] ∧
    (busy ⟨0x9#4, 0, []⟩).inFlight = some ⟨0x9#4, 0, []⟩ ∧ 0x9#4 ≤ (⟨0x9#4, 0, []⟩ : Request).op := by decide

theorem witness_OversizeInputAnswersInputOverflow : ∃ inp : Bytes, idle.nInMax = .bytes 0 ∧
    (Instr.lenDec 0 inp).isReserved = false ∧ 4113 + 0 < (Instr.lenDec 0 inp).input.length :=
  ⟨List.replicate 4114 0#8, rfl, rfl, by rw [Instr.input, List.length_replicate]; decide⟩

theorem witness_OversizeInputAnswersInputOverflow_admitted : (∃ extra, idle.nInMax = .bytes extra ∧
    (Instr.hexEnc 0 []).input.length ≤ 4113 + extra) ∧ (∃ t, exec (.hexEnc 0 []) idle = .next t) ∧
    ∃ t, exec (.hexEnc 0 []) ⟨.unbounded, none, none⟩ = .next t := ⟨⟨0, rfl, by decide⟩, ⟨_, rfl⟩, _, rfl⟩

theorem witness_OperationsReportOnlyTheirTabledErrors : ∃ t, exec (.frameDec 0 frameF1) idle = .next t := ⟨_, rfl⟩

theorem witness_ErrorResponseHasNoFieldToRead : ∃ t, exec (.frameDec 0 []) idle = .next t ∧ t.readStatus ≠ .ok 0#3 :=
  ⟨_, rfl, by decide⟩

theorem witness_UnreadOperandsAreIgnored : idle.nInMax.admits ([] : Bytes).length = idle.nInMax.admits [0x41#8].length := by decide

/-- FRAME_CSUM, CSUM_VFY on its checksum and off it, HEX_ENC: an admitted IN. -/
theorem witness_ChecksumStatements : idle.nInMax.admits [0x01#8].length = true ∧ 0xFFFF#16 = chk16 [0x01#8] ∧
    0x0000#16 ≠ chk16 [0x01#8] ∧ idle.inFlight = none := by decide

theorem witness_NegationIsTwosComplement : 0xFFFF#16 ≠ 0#16 := by decide

theorem witness_LengthFieldIsInvertible : (0x3FFF#16).extractLsb' 12 4 = lchk ((0x3FFF#16).extractLsb' 0 12) ∧
    (0x3FFF#16).extractLsb' 0 12 = 0xFFF#12 := by decide

/-- LEN_ENC at both sides of its bound, LEN_DEC on a valid and an invalid field. -/
theorem witness_LengthStatements : idle.nInMax.admits ([] : Bytes).length = true ∧ (0x0FFF#16).toNat ≤ 0x0FFF ∧
    0x0FFF < (0x1000#16).toNat ∧ (0x0088#16).extractLsb' 12 4 = lchk ((0x0088#16).extractLsb' 0 12) ∧
    (0xF000#16).extractLsb' 12 4 ≠ lchk ((0xF000#16).extractLsb' 0 12) := by decide

theorem witness_HexEncWritesTwoDigitsPerByte : idle.nInMax.admits [0x0A#8].length = true ∧ [0x0A#8][0]? = some 0x0A#8 := by decide

theorem witness_HexDecReadsPairsAfterTwoChecks : (ascii "0").length % 2 = 1 ∧
    ((ascii "0G").length % 2 = 0 ∧ ∃ c ∈ ascii "0G", isHex c = false) ∧
    ((ascii "0a").length % 2 = 0 ∧ (∀ c ∈ ascii "0a", isHex c = true) ∧ (ascii "0a")[2 * 0]? = some 0x30#8 ∧
      (ascii "0a")[2 * 0 + 1]? = some 0x61#8) := by decide

theorem witness_HexCodecRoundTrips : hexdec (ascii "fF") = .ok [0xFF#8] := rfl

theorem witness_FrameEncBuildsTheFrameAfterThreeChecks : (∃ inp : Bytes, 4095 < inp.length) ∧
    (∃ c ∈ ascii "0G", isHex c = false) ∧ ((∀ c ∈ ascii "0", isHex c = true) ∧ (ascii "0").length % 2 = 1) ∧
    ((∀ c ∈ ascii "02", isHex c = true) ∧ (ascii "02").length % 2 = 0) :=
  ⟨⟨List.replicate 4096 0#8, by rw [List.length_replicate]; decide⟩, by decide, by decide, by decide⟩

/-- An encoded frame: for EncodedFrameHasItsShape, FrameEncIsComposedOfTheUnits and FrameLengthsAreBounded. -/
theorem witness_EncodedFrameStatements : ∃ t, exec (.frameEnc 0x02#8 0x42#8 (ascii "02")) idle = .next t ∧
    t.readOut = .ok frameF1 ∧ (ascii "02").length ≤ 4095 := ⟨_, rfl, rfl, by decide⟩

theorem witness_ListedCommandsAreEncoded : idle.inFlight = none ∧ ([] : Bytes).length ≤ 4094 ∧ ([] : Bytes).length % 2 = 0 ∧
    ∀ x ∈ ([] : Bytes), isHex x = true := by decide

/-- One frame for each check of FRAME_DEC, in order (V-R1, V-R4, V-R7, V-R9, V-R14, V-R19, V-R20, V-R22, V-R25, V-R27, V-R29):
each is stopped by its own check, so each meets the hypotheses of its clause. -/
theorem witness_FrameDecReportsTheFirstFailingCheck :
    ["", "~", "~\r", "~20024642E00202FD3G\r", "~20024642E00202FD34\r", "~20024642E00FDC7\r", "~2002464GE00202FD1E\r",
      "~20024642F00202FD32\r", "~20024642E002FD95\r", "~20024642F0010FD65\r", "~20024642E0020gFCFE\r"].map
      (fun t => reply (.frameDec 0 (ascii t))) =
    [errResponse 1#3 1#4, errResponse 1#3 2#4, errResponse 3#3 1#4, errResponse 1#3 3#4, errResponse 2#3 1#4,
      errResponse 3#3 2#4, errResponse 1#3 4#4, errResponse 2#3 2#4, errResponse 1#3 5#4, errResponse 1#3 6#4,
      errResponse 1#3 7#4].map some := by decide

/-- The hypotheses of FrameDecAnswersHeaderAndInfo, and of the last clauses of the check order, on V-F1. -/
theorem witness_FrameDecAnswersHeaderAndInfo : idle.nInMax.admits frameF1.length = true ∧ 18 ≤ frameF1.length ∧
    frameF1[0]? = some 0x7E#8 ∧ frameF1[frameF1.length - 1]? = some 0x0D#8 ∧
    val4 (seg frameF1 (frameF1.length - 5) 4) = some (chk16 (seg frameF1 1 (frameF1.length - 6))) := by decide

theorem witness_FrameDecAnswersHeaderAndInfo_fields : (∀ c ∈ seg frameF1 1 12, isHex c = true) ∧
    val4 (seg frameF1 9 4) = some 0xE002#16 ∧ (0xE002#16).extractLsb' 12 4 = lchk ((0xE002#16).extractLsb' 0 12) ∧
    frameF1.length - 18 = ((0xE002#16).extractLsb' 0 12).toNat ∧ frameF1.length % 2 = 0 ∧
    ∀ c ∈ seg frameF1 13 (frameF1.length - 18), isHex c = true := by decide

theorem witness_FrameDecAcceptsOnlyWholeFrames : ∃ t, exec (.frameDec 0 frameF1) idle = .next t ∧
    t.readHdr = .ok ⟨0x20#8, 0x02#8, 0x46#8, 0x42#8, 0xE002#16⟩ := ⟨_, rfl, rfl⟩

theorem witness_FrameDecReportsAnyFixedFields : (ascii "02").length ≤ 4095 ∧ hexdec (ascii "02") = .ok [0x02#8] := ⟨by decide, rfl⟩

theorem witness_FrameDecodesWhatWasEncoded : idle.inFlight = none ∧ [0x02#8].length ≤ 2047 ∧ (ascii "ff").length ≤ 4094 ∧
    (ascii "ff").length % 2 = 0 ∧ ∀ c ∈ ascii "ff", isHex c = true := by decide

/-- On V-F1 (L = 2): a byte of each region, and replacements for each clause (V-T1 to V-T5). -/
theorem witness_SingleByteTamperIsReported : (∃ t, exec (.frameEnc 0x02#8 0x42#8 (ascii "02")) idle = .next t ∧
      t.readOut = .ok frameF1) ∧
    [0, 1, 14, 15, 16, 18, 19].map (fun j : Nat => frameF1[j]?) =
      [0x7E#8, 0x32#8, 0x32#8, 0x46#8, 0x44#8, 0x33#8, 0x0D#8].map some ∧
    isHex 0x47#8 = false ∧ (isHex 0x34#8 = true ∧ hexval 0x34#8 ≠ hexval 0x33#8) ∧ hexval 0x66#8 = hexval 0x46#8 ∧
    0x66#8 ≠ 0x46#8 := ⟨⟨_, rfl, rfl⟩, by decide⟩

theorem witness_SumKeepingChangesAreNotDetected : (ascii "FD33").length = 4 ∧
    (ascii "20204642E00202").length = (ascii "20024642E00202").length ∧
    idle.nInMax.admits ((ascii "20204642E00202").length + 6) = true ∧
    ((ascii "20204642E00202").map BitVec.toNat).sum % 0x10000 = ((ascii "20024642E00202").map BitVec.toNat).sum % 0x10000 ∧
    nsum 0x001#12 % 16 = nsum 0x010#12 % 16 := by decide

end Sys2Proof.Tests
end

section
/-! PROOFS. Reset and the reads of a block without a response (10_state.md R28, 00_scope.md R12). -/

namespace Sys2Proof.Machine

/-- The host may issue a request whenever none is in flight (70_reset_and_hazards.md R233). -/
theorem State.issue_of_idle {s : State} (h : s.inFlight = none) (q : Request) : s.issue q = .next (s.present q) := by
  simp [State.issue, h]

theorem State.readStatus_of_no_response {s : State} (h : s.response = none) :
    s.readStatus = .error (.absentField .status) := by
  simp [State.readStatus, h]

theorem State.readSub_of_no_response {s : State} (h : s.response = none) : s.readSub = .error (.absentField .sub) := by
  simp [State.readSub, h]

theorem State.readR_of_no_response {s : State} (h : s.response = none) : s.readR = .error (.absentField .r) := by
  simp [State.readR, h]

theorem State.readOut_of_no_response {s : State} (h : s.response = none) : s.readOut = .error (.absentField .out) := by
  simp [State.readOut, h]

theorem State.readHdr_of_no_response {s : State} (h : s.response = none) : s.readHdr = .error (.absentField .hdr) := by
  simp [State.readHdr, h]

/-- Settles O1: reset, by power-on or by the host, leaves the port empty, and presenting a request puts no response there. -/
theorem resetLeavesNothingToRead : Obligations.ResetLeavesNothingToRead := by
  intro s t q ht
  have hidle : t.inFlight = none := by
    rcases ht with rfl | rfl
    · exact State.reset_inFlight
    · exact State.assertReset_inFlight s
  have hempty : t.response = none := by
    rcases ht with rfl | rfl
    · exact State.reset_response
    · exact State.assertReset_response s
  refine ⟨hidle, State.issue_of_idle hidle q, fun u hu => ?_⟩
  have hu_empty : u.response = none := by
    rcases hu with rfl | rfl
    · exact hempty
    · exact State.present_response t q
  exact ⟨State.readStatus_of_no_response hu_empty, State.readSub_of_no_response hu_empty,
    State.readR_of_no_response hu_empty, State.readOut_of_no_response hu_empty, State.readHdr_of_no_response hu_empty⟩

end Sys2Proof.Machine
end

section
/-! PROOFS. Equal requests get equal responses, and every operation ends in one of two ways (20_memory.md R48, R49). -/

namespace Sys2Proof.Machine

/-- One step answers a request in flight, with a response that depends on the request and N_IN_MAX alone. -/
theorem step_answered (s : State) (q : Request) :
    ∃ p, ∀ s' : State, s'.nInMax = s.nInMax → s'.inFlight = some q → step s' = .next (s'.answered p) := by
  obtain ⟨p, hp⟩ := exec_answered (decode q) s
  exact ⟨p, fun s' hlim hq => (step_of_inFlight hq).trans (hp s' hlim)⟩

/-- Settles O10: the one response of `step_answered` serves both states. -/
theorem equalRequestsGetEqualResponses : Obligations.EqualRequestsGetEqualResponses := by
  intro s s' q hlim hs hs'
  obtain ⟨p, hp⟩ := step_answered s q
  exact ⟨p, hp s rfl hs, hp s' hlim.symm hs'⟩

/-- A success has passed the length check of IN. -/
theorem checkInput_ok {lim : InLimit} {inp : Bytes} {res : Except Err Payload} {p : Payload}
    (h : checkInput lim inp res = .ok p) : res = .ok p := by
  cases ha : lim.admits inp.length with
  | true => rwa [checkInput_of_admits ha] at h
  | false => simp [checkInput_of_not_admits ha] at h

/-- The length check of IN adds InputOverflow to the errors of the operation and no other (60_exceptions.md R204). -/
theorem checkInput_error {lim : InLimit} {inp : Bytes} {res : Except Err Payload} {e : Err} {es : List Err}
    (h : checkInput lim inp res = .error e) (hres : res = .error e → e ∈ es) : e ∈ Err.inputOverflow :: es := by
  cases ha : lim.admits inp.length with
  | true =>
    rw [checkInput_of_admits ha] at h
    exact List.mem_cons_of_mem _ (hres h)
  | false =>
    rw [checkInput_of_not_admits ha] at h
    cases h
    exact List.mem_cons_self

/-- CSUM_VFY reports only whether the checksum holds (40_checksum.md R111). -/
theorem csumVfyResult_cases (a : Word) (inp : Bytes) :
    csumVfyResult a inp = .ok {} ∨ csumVfyResult a inp = .error (.checksumMismatch .frame) := by
  unfold csumVfyResult
  split
  · exact .inr rfl
  · exact .inl rfl

/-- LEN_ENC writes R, or its operand is too long (40_checksum.md R112). -/
theorem lenEncResult_cases (a : Word) :
    (∃ w, lenEncResult a = .ok { r := some w }) ∨ lenEncResult a = .error (.encodingError .tooLong) := by
  unfold lenEncResult
  split
  · exact .inr rfl
  · exact .inl ⟨_, rfl⟩

/-- LEN_DEC writes R, or the field's checksum fails (40_checksum.md R113). -/
theorem lenDecResult_cases (a : Word) :
    (∃ w, lenDecResult a = .ok { r := some w }) ∨ lenDecResult a = .error (.checksumMismatch .length) := by
  unfold lenDecResult
  split
  · exact .inr rfl
  · exact .inl ⟨_, rfl⟩

/-- HEX_DEC that succeeds writes OUT (41_hex_codec.md R143). -/
theorem hexDecResult_ok {inp : Bytes} {p : Payload} (h : hexDecResult inp = .ok p) :
    ∃ b, hexdec inp = .ok b ∧ p = { out := some b } := by
  unfold hexDecResult at h
  split at h
  · cases h
  · next b hb => cases h; exact ⟨b, hb, rfl⟩

/-- FRAME_ENC writes OUT, or one of its three checks fails (42_frame.md R161). -/
theorem frameEncResult_cases (adr cid2 : Byte) (inp : Bytes) :
    frameEncResult adr cid2 inp = .ok { out := some (buildFrame adr cid2 inp) } ∨
      ∃ c : EncodingCause, frameEncResult adr cid2 inp = .error (.encodingError c) := by
  unfold frameEncResult
  split
  · exact .inr ⟨_, rfl⟩
  · split
    · exact .inr ⟨_, rfl⟩
    · split
      · exact .inr ⟨_, rfl⟩
      · exact .inl rfl

/-- An operation that succeeds has written exactly the fields of 10_state.md R23. -/
theorem instrResult_ok {lim : InLimit} {i : Instr} {p : Payload} (h : instrResult lim i = .ok p) :
    (p.r.isSome, p.out.isSome, p.hdr.isSome) = instrWrites i := by
  cases i with
  | frameCsum a inp => cases checkInput_ok h; rfl
  | csumVfy a inp =>
    have hr := checkInput_ok h
    rcases csumVfyResult_cases a inp with hc | hc <;> cases hc.symm.trans hr
    rfl
  | lenEnc a inp =>
    have hr := checkInput_ok h
    rcases lenEncResult_cases a with ⟨w, hc⟩ | hc <;> cases hc.symm.trans hr
    rfl
  | lenDec a inp =>
    have hr := checkInput_ok h
    rcases lenDecResult_cases a with ⟨w, hc⟩ | hc <;> cases hc.symm.trans hr
    rfl
  | hexEnc a inp => cases checkInput_ok h; rfl
  | hexDec a inp => obtain ⟨b, -, rfl⟩ := hexDecResult_ok (checkInput_ok h); rfl
  | frameEnc adr cid2 inp =>
    have hr := checkInput_ok h
    rcases frameEncResult_cases adr cid2 inp with hc | ⟨c, hc⟩ <;> cases hc.symm.trans hr
    rfl
  | frameDec a inp =>
    obtain ⟨d, _, _, _, _, hd, _⟩ := frameDecResult_ok (checkInput_ok h)
    obtain ⟨b, hdr, rfl, _⟩ := dataDecResult_ok hd
    rfl
  | _ => cases h

/-- An operation that fails reports an error its row of 60_exceptions.md R201 lists. -/
theorem instrResult_error {lim : InLimit} {i : Instr} {e : Err} (h : instrResult lim i = .error e) :
    e ∈ instrErrors i := by
  cases i with
  | frameCsum a inp => exact checkInput_error h fun hr => by cases hr
  | csumVfy a inp =>
    refine checkInput_error h fun hr => ?_
    rcases csumVfyResult_cases a inp with hc | hc <;> cases hc.symm.trans hr
    simp
  | lenEnc a inp =>
    refine checkInput_error h fun hr => ?_
    rcases lenEncResult_cases a with ⟨w, hc⟩ | hc <;> cases hc.symm.trans hr
    simp
  | lenDec a inp =>
    refine checkInput_error h fun hr => ?_
    rcases lenDecResult_cases a with ⟨w, hc⟩ | hc <;> cases hc.symm.trans hr
    simp
  | hexEnc a inp => exact checkInput_error h fun hr => by cases hr
  | hexDec a inp => exact checkInput_error h fun hr => by simpa using hexDecResult_error hr
  | frameEnc adr cid2 inp =>
    refine checkInput_error h fun hr => ?_
    rcases frameEncResult_cases adr cid2 inp with hc | ⟨c, hc⟩ <;> cases hc.symm.trans hr
    cases c <;> simp
  | frameDec a inp => exact checkInput_error h frameDecResult_error
  | _ => cases h; simp [instrErrors]

/-- Settles O20: the response is that of the operation's result, which is a success with its fields or a listed error. -/
theorem everyOperationEndsInOneOfTwoWays : Obligations.EveryOperationEndsInOneOfTwoWays := by
  intro i s
  rw [exec_eq_deliver]
  cases h : instrResult s.nInMax i with
  | ok p => exact ⟨okResponse p.r p.out p.hdr, rfl, .inl ⟨rfl, rfl, instrResult_ok h⟩⟩
  | error e => exact ⟨errResponse e.status e.sub, rfl, .inr ⟨e, instrResult_error h, rfl⟩⟩

end Sys2Proof.Machine
end

section
/-! PROOFS. The opcode map and the hex digits (30_encoding.md R61, R67 to R69). -/

namespace Sys2Proof.Machine

open Laws

/-- OP 0x7 reads two byte operands out of A (30_encoding.md R63). -/
theorem decode_frameEnc (a : Word) (inp : Bytes) :
    decode ⟨0x7#4, a, inp⟩ = .frameEnc (a.extractLsb' 0 8) (a.extractLsb' 8 8) inp := rfl

/-- Settles O12: every row but FRAME_ENC's passes its operands on as they are, so it is the instruction's own law in the family
`DecodeEncode`; FRAME_ENC's row is the split of A. -/
theorem opcodeMapDecodesAsTabled : Obligations.OpcodeMapDecodesAsTabled := fun a inp =>
  ⟨DecodeEncode.frameCsum a inp, DecodeEncode.csumVfy a inp, DecodeEncode.lenEnc a inp, DecodeEncode.lenDec a inp,
    DecodeEncode.hexEnc a inp, DecodeEncode.hexDec a inp, decode_frameEnc a inp, DecodeEncode.frameDec a inp,
    DecodeEncode.reserved0 a inp, DecodeEncode.reserved9 a inp, DecodeEncode.reservedA a inp, DecodeEncode.reservedB a inp,
    DecodeEncode.reservedC a inp, DecodeEncode.reservedD a inp, DecodeEncode.reservedE a inp, DecodeEncode.reservedF a inp⟩

/-- The three ranges of hex digits, as numbers. -/
theorem isHex_iff_toNat (c : Byte) : isHex c = true ↔
    (0x30 ≤ c.toNat ∧ c.toNat ≤ 0x39) ∨ (0x41 ≤ c.toNat ∧ c.toNat ≤ 0x46) ∨ (0x61 ≤ c.toNat ∧ c.toNat ≤ 0x66) := by
  simp [isHex, BitVec.le_def]

/-- A byte less than 16 above a base: its offset from the base fits a nibble, so the cut to 4 bits loses nothing. -/
theorem setWidth_sub_eq_iff {c : Byte} {base : Nat} (n : Nibble) (hle : base ≤ c.toNat) (hlt : c.toNat - base < 16) :
    (c - BitVec.ofNat 8 base).setWidth 4 = n ↔ n.toNat = c.toNat - base := by
  have hbase : (BitVec.ofNat 8 base).toNat = base := Nat.mod_eq_of_lt (by omega)
  have hsub : (c - BitVec.ofNat 8 base).toNat = c.toNat - base := by
    rw [BitVec.toNat_sub_of_le (by rwa [BitVec.le_def, hbase]), hbase]
  rw [← BitVec.toNat_inj, BitVec.toNat_setWidth, hsub, Nat.mod_eq_of_lt hlt, eq_comm]

/-- The value of a digit in each range; a byte outside them has none. -/
theorem hexval_eq_some_iff (c : Byte) (n : Nibble) : hexval c = some n ↔
    (0x30 ≤ c.toNat ∧ c.toNat ≤ 0x39 ∧ n.toNat = c.toNat - 0x30) ∨
    (0x41 ≤ c.toNat ∧ c.toNat ≤ 0x46 ∧ n.toNat = c.toNat - 0x37) ∨
    (0x61 ≤ c.toNat ∧ c.toNat ≤ 0x66 ∧ n.toNat = c.toNat - 0x57) := by
  unfold hexval
  simp only [BitVec.le_def, BitVec.toNat_ofNat, Nat.reducePow, Nat.reduceMod]
  split_ifs
  · rw [Option.some_inj, setWidth_sub_eq_iff n (by omega) (by omega)]
    omega
  · rw [Option.some_inj, setWidth_sub_eq_iff n (by omega) (by omega)]
    omega
  · rw [Option.some_inj, setWidth_sub_eq_iff n (by omega) (by omega)]
    omega
  · rw [false_iff]
    omega

/-- Adding a nibble to an ASCII base stays within a byte: `hexchar` as a number. -/
theorem toNat_hexchar (n : Nibble) :
    (hexchar n).toNat = if n.toNat ≤ 9 then 0x30 + n.toNat else 0x37 + n.toNat := by
  unfold hexchar
  simp only [BitVec.le_def, BitVec.toNat_ofNat, Nat.reducePow, Nat.reduceMod]
  split_ifs <;> simp <;> omega

/-- Settles O14: the class, the value and the character of a digit, each by its own law. -/
theorem hexDigitsHaveTheirAsciiCodes : Obligations.HexDigitsHaveTheirAsciiCodes :=
  ⟨isHex_iff_toNat, hexval_eq_some_iff, toNat_hexchar⟩

end Sys2Proof.Machine
end

section
/-! PROOFS. The length check of IN, once for every operation that makes it (60_exceptions.md R204, R205). -/

namespace Sys2Proof.Machine

/-- On an admitted IN an operation that makes the length check delivers its own result (60_exceptions.md R204, R205). -/
theorem exec_of_admits {i : Instr} {inp : Bytes} {s : State} {res : Except Err Payload}
    (hi : instrResult s.nInMax i = checkInput s.nInMax inp res) (h : s.nInMax.admits inp.length = true) :
    exec i s = s.deliver res := by
  rw [exec_eq_deliver, hi, checkInput_of_admits h]

end Sys2Proof.Machine
end

section
/-! PROOFS. The frame checksum: the running sum, its negation, and the two operations on it (40_checksum.md R100, R103, R110,
R111). -/

namespace Sys2Proof.Machine

/-- Wrapping after each byte changes nothing: both sums are the unbounded sum mod 0x10000. -/
theorem runningSum_eq_sum16 (s : Bytes) : runningSum s = sum16 s :=
  BitVec.eq_of_toNat_eq ((toNat_runningSum s).trans (toNat_sum16 s).symm)

/-- Settles O25: `toNat_sum16` and `runningSum_eq_sum16`. -/
theorem wrappingAccumulatorHoldsTheByteSum : Obligations.WrappingAccumulatorHoldsTheByteSum := fun s =>
  ⟨toNat_sum16 s, runningSum_eq_sum16 s, rfl⟩

/-- The one value that makes up the byte sum to a multiple of 0x10000 is the checksum. -/
theorem byteSum_add_mod_eq_zero_iff (s : Bytes) (c : Word) : (byteSum s + c.toNat) % 0x10000 = 0 ↔ c = chk16 s := by
  have hc := c.isLt
  rw [← BitVec.toNat_inj, toNat_chk16]
  omega

/-- The same law on the 16-bit sum (40_checksum.md R103). -/
theorem sum16_add_mod_eq_zero_iff (s : Bytes) (c : Word) :
    ((sum16 s).toNat + c.toNat) % 0x10000 = 0 ↔ c = chk16 s := by
  rw [toNat_sum16, Nat.mod_add_mod, byteSum_add_mod_eq_zero_iff]

/-- Settles O27: the law is its own uniqueness, read at `chk16 s`. -/
theorem frameChecksumIsInvertible : Obligations.FrameChecksumIsInvertible := fun s =>
  ⟨(sum16_add_mod_eq_zero_iff s _).mpr rfl, sum16_add_mod_eq_zero_iff s⟩

/-- FRAME_CSUM's loop computes the checksum of R102. -/
theorem frameCsumResult_eq (inp : Bytes) : frameCsumResult inp = .ok { r := some (chk16 inp) } := by
  rw [frameCsumResult, runningSum_eq_sum16, chk16]

/-- Settles O31: the delivered payload is that of `frameCsumResult_eq`. -/
theorem frameCsumAnswersTheChecksum : Obligations.FrameCsumAnswersTheChecksum := by
  intro a inp s h
  refine ⟨?_, toNat_chk16 inp⟩
  rw [exec_of_admits rfl h, frameCsumResult_eq]
  rfl

/-- CSUM_VFY accepts the checksum, and by the next lemma no other A (40_checksum.md R111). -/
theorem csumVfyResult_chk16 (inp : Bytes) : csumVfyResult (chk16 inp) inp = .ok {} :=
  if_neg (not_not.mpr ((sum16_add_mod_eq_zero_iff inp _).mpr rfl))

theorem csumVfyResult_of_ne {a : Word} {inp : Bytes} (h : a ≠ chk16 inp) :
    csumVfyResult a inp = .error (.checksumMismatch .frame) :=
  if_pos (mt (sum16_add_mod_eq_zero_iff inp a).mp h)

/-- Settles O32: the test of CSUM_VFY is the law of R103, so it passes for the checksum alone. -/
theorem csumVfyAcceptsExactlyTheChecksum : Obligations.CsumVfyAcceptsExactlyTheChecksum := by
  intro a inp s h
  have hexec : exec (.csumVfy a inp) s = s.deliver (csumVfyResult a inp) := exec_of_admits rfl h
  refine ⟨fun ha => ?_, fun ha => ?_, (byteSum_add_mod_eq_zero_iff inp a).symm⟩
  · subst ha
    rw [hexec, csumVfyResult_chk16]
    rfl
  · rw [hexec, csumVfyResult_of_ne ha]
    rfl

end Sys2Proof.Machine
end

section
/-! PROOFS. The length checksum: its nibble, the length field, and the two operations on it (40_checksum.md R105, R107, R108,
R112, R113). -/

namespace Sys2Proof.Machine

/-- The nibble makes up the nibble sum to a multiple of 16, and no other nibble does. -/
theorem nsum_add_mod_eq_zero_iff (l : Length) (c : Nibble) : (nsum l + c.toNat) % 16 = 0 ↔ c = lchk l := by
  have hc := c.isLt
  rw [← BitVec.toNat_inj, toNat_lchk]
  omega

/-- The nibble sum of a length in its digits: the high two as one number, and the low one. -/
theorem nsum_ofNat {h d : Nat} (hh : h < 256) (hd : d < 16) :
    nsum (BitVec.ofNat 12 (16 * h + d)) = d + (h % 16 + h / 16) := by
  have hlt : (16 * h + d) % 2 ^ 12 = 16 * h + d := Nat.mod_eq_of_lt (by omega)
  rw [nsum_eq, BitVec.toNat_ofNat, hlt]
  omega

/-- Exactly one low digit completes the other digits' sum `c` to a multiple of 16. -/
theorem countP_digit_completing (c : Nat) : (List.range 16).countP (fun d => decide ((d + c) % 16 = 0)) = 1 := by
  have small : ∀ r < 16, (List.range 16).countP (fun d => decide ((d + r) % 16 = 0)) = 1 := by decide
  simpa only [Nat.add_mod_mod] using small (c % 16) (Nat.mod_lt c (by decide))

/-- Does the nibble sum of the length `n` vanish mod 16? -/
def nsumVanishes (n : Nat) : Bool := decide (nsum (BitVec.ofNat 12 n) % 16 = 0)

/-- One length in each block of 16 has a nibble sum of 0 mod 16. -/
theorem countP_nsumVanishes (h : Nat) (hh : h ≤ 256) : (List.range (16 * h)).countP nsumVanishes = h := by
  induction h with
  | zero => rfl
  | succ h ih =>
    have block : (List.range 16).countP (nsumVanishes ∘ (16 * h + ·)) = 1 := by
      rw [← countP_digit_completing (h % 16 + h / 16)]
      refine List.countP_congr fun d hd => ?_
      simp [nsumVanishes, nsum_ofNat (show h < 256 by omega) (List.mem_range.mp hd)]
    rw [Nat.mul_succ, List.range_add, List.countP_append, List.countP_map, ih (by omega), block]

theorem lchk_eq_zero_iff (l : Length) : lchk l = 0#4 ↔ nsum l % 16 = 0 := by
  rw [eq_comm, ← nsum_add_mod_eq_zero_iff, BitVec.toNat_zero, Nat.add_zero]

/-- Settles O28: the formulas by `toNat_lchk`, and the count by 256 blocks of 16 lengths. -/
theorem lengthNibbleIsNegatedNibbleSum : Obligations.LengthNibbleIsNegatedNibbleSum := by
  refine ⟨fun l => ⟨?_, toNat_lchk l, (lchk_eq_zero_iff l).symm⟩, ?_, rfl⟩
  · rw [toNat_lchk]
    omega
  · exact List.countP_eq_length_filter.symm.trans (countP_nsumVanishes 256 le_rfl)

theorem lenfield_zero : lenfield 0#12 = 0x0000#16 := rfl

/-- Settles O29: the special case returns what the general formula gives for 0. -/
theorem zeroLengthNeedsNoSpecialCase : Obligations.ZeroLengthNeedsNoSpecialCase := by
  refine ⟨lenfield_zero, fun l => ?_⟩
  split
  case isTrue h => rw [h, lenfield_zero]
  case isFalse => rfl

/-- A field is made of its two parts. -/
theorem eq_lenfield_iff (f : Word) (l : Length) : f = lenfield l ↔ lchksum f = lchk (lenid f) ∧ lenid f = l := by
  constructor
  · rintro rfl
    exact ⟨by rw [lchksum_lenfield, lenid_lenfield], lenid_lenfield l⟩
  · rintro ⟨hc, rfl⟩
    apply BitVec.eq_of_toNat_eq
    rw [toNat_lenfield, ← hc, toNat_lchksum, toNat_lenid]
    omega

/-- Settles O30: the parts of a length field, and that a field with those parts is that one. -/
theorem lengthFieldIsInvertible : Obligations.LengthFieldIsInvertible := fun l =>
  ⟨(nsum_add_mod_eq_zero_iff l _).mpr rfl, lenid_lenfield l, lchksum_lenfield l, fun f => (eq_lenfield_iff f l).symm⟩

/-- The bound of LEN_ENC as a number. -/
theorem gt_0FFF_iff (a : Word) : a > 0x0FFF#16 ↔ 0x0FFF < a.toNat := by
  rw [gt_iff_lt, BitVec.lt_def]
  rfl

theorem lenEncResult_of_le {a : Word} (h : a.toNat ≤ 0x0FFF) : lenEncResult a = .ok { r := some (lenfield (lenid a)) } :=
  if_neg (mt (gt_0FFF_iff a).mp (Nat.not_lt.mpr h))

theorem lenEncResult_of_gt {a : Word} (h : 0x0FFF < a.toNat) : lenEncResult a = .error (.encodingError .tooLong) :=
  if_pos ((gt_0FFF_iff a).mpr h)

/-- The nibble sum of LENID, in the digits of the field. -/
theorem nsum_lenid (f : Word) :
    nsum (lenid f) = f.toNat % 16 + f.toNat / 16 % 16 + f.toNat / 256 % 16 := by
  have low : f.toNat % 0x1000 % 16 = f.toNat % 16 := by omega
  have mid : f.toNat % 0x1000 / 16 % 16 = f.toNat / 16 % 16 := by omega
  have high : f.toNat % 0x1000 / 256 = f.toNat / 256 % 16 := by omega
  rw [nsum_eq, toNat_lenid, low, mid, high]

/-- The length field of an operand that fits 12 bits, in its digits. -/
theorem toNat_lenfield_lenid {a : Word} (h : a.toNat ≤ 0x0FFF) : (lenfield (lenid a)).toNat =
    (16 - (a.toNat % 16 + a.toNat / 16 % 16 + a.toNat / 256) % 16) % 16 * 0x1000 + a.toNat := by
  have hhigh : a.toNat / 256 % 16 = a.toNat / 256 := Nat.mod_eq_of_lt (by omega)
  have hlenid : a.toNat % 0x1000 = a.toNat := Nat.mod_eq_of_lt (by omega)
  rw [toNat_lenfield, toNat_lchk, nsum_lenid, hhigh, toNat_lenid, hlenid]

/-- Settles O34: LEN_ENC's two results, on either side of 0x0FFF. -/
theorem lenEncAnswersTheLengthField : Obligations.LenEncAnswersTheLengthField := by
  intro a inp s hin
  have hexec : exec (.lenEnc a inp) s = s.deliver (lenEncResult a) := exec_of_admits rfl hin
  refine ⟨fun ha => ⟨?_, toNat_lenfield_lenid ha⟩, fun ha => ?_⟩
  · rw [hexec, lenEncResult_of_le ha]
    rfl
  · rw [hexec, lenEncResult_of_gt ha]
    rfl

/-- Masking off LCHKSUM leaves LENID. -/
theorem setWidth_lenid (f : Word) : (lenid f).setWidth 16 = f &&& 0x0FFF#16 := by
  apply BitVec.eq_of_toNat_eq
  rw [BitVec.toNat_setWidth, toNat_lenid, BitVec.toNat_and]
  have hmask : f.toNat &&& 0x0FFF = f.toNat % 0x1000 := Nat.and_two_pow_sub_one_eq_mod f.toNat 12
  have hlt : f.toNat % 0x1000 % 2 ^ 16 = f.toNat % 0x1000 := Nat.mod_eq_of_lt (by omega)
  exact hlt.trans hmask.symm

theorem lenDecResult_of_eq {a : Word} (h : lchksum a = lchk (lenid a)) :
    lenDecResult a = .ok { r := some (a &&& 0x0FFF#16) } := by
  rw [lenDecResult, if_neg (not_not.mpr h), setWidth_lenid]

theorem lenDecResult_of_ne {a : Word} (h : lchksum a ≠ lchk (lenid a)) :
    lenDecResult a = .error (.checksumMismatch .length) :=
  if_pos h

/-- A field is valid exactly when its four nibbles sum to 0 mod 16. -/
theorem lchksum_eq_lchk_lenid_iff (f : Word) : lchksum f = lchk (lenid f) ↔
    (f.toNat % 16 + f.toNat / 16 % 16 + f.toNat / 256 % 16 + f.toNat / 0x1000) % 16 = 0 := by
  rw [← nsum_add_mod_eq_zero_iff, nsum_lenid, toNat_lchksum]

/-- Settles O35: LEN_DEC's two results, by whether the field is valid. -/
theorem lenDecAcceptsExactlyValidFields : Obligations.LenDecAcceptsExactlyValidFields := by
  intro a inp s hin
  have hexec : exec (.lenDec a inp) s = s.deliver (lenDecResult a) := exec_of_admits rfl hin
  refine ⟨fun ha => ?_, fun ha => ?_, lchksum_eq_lchk_lenid_iff a⟩
  · rw [hexec, lenDecResult_of_eq ha]
    rfl
  · rw [hexec, lenDecResult_of_ne ha]
    rfl

end Sys2Proof.Machine
end

section
/-! PROOFS. The ASCII-hex codec: what each position of its texts holds, its round-trip laws, and the two operations on it
(41_hex_codec.md R140 to R144). -/

namespace Sys2Proof.Machine

/-- The digits of byte `k` stand at `2k` and `2k + 1`, the high nibble first (41_hex_codec.md R140). -/
theorem getElem?_hexenc {inp : Bytes} {k : Nat} {b : Byte} (h : inp[k]? = some b) :
    (hexenc inp)[2 * k]? = some (hexchar (b.extractLsb' 4 4)) ∧
      (hexenc inp)[2 * k + 1]? = some (hexchar (b.extractLsb' 0 4)) := by
  induction inp generalizing k with
  | nil => simp at h
  | cons c inp ih =>
    rw [hexenc_cons]
    cases k with
    | zero => cases h; exact ⟨rfl, rfl⟩
    | succ k => exact ih h

/-- Settles O37: HEX_ENC delivers `hexenc`, whose length and digits are known. -/
theorem hexEncWritesTwoDigitsPerByte : Obligations.HexEncWritesTwoDigitsPerByte := by
  intro a inp s h
  refine ⟨?_, length_hexenc inp, fun k b => getElem?_hexenc⟩
  rw [exec_of_admits (res := hexEncResult inp) rfl h]
  rfl

/-- A text that starts with two digits decodes exactly when the pair and the rest do. -/
theorem hexPairs_cons_cons_eq_some_iff (c d : Byte) (s out : Bytes) :
    hexPairs (c :: d :: s) = some out ↔ ∃ b, val2 [c, d] = some b ∧ ∃ bs, hexPairs s = some bs ∧ b :: bs = out := by
  simp only [hexPairs_cons_cons, Option.bind_eq_some_iff, Option.map_eq_some_iff]

/-- Byte `k` of a decoded text is the value of the pair at `2k` and `2k + 1` (41_hex_codec.md R142). -/
theorem getElem?_of_hexPairs {s out : Bytes} (h : hexPairs s = some out) {k : Nat} {c d : Byte}
    (hc : s[2 * k]? = some c) (hd : s[2 * k + 1]? = some d) : out[k]? = val2 [c, d] := by
  induction s using hexPairs.induct generalizing out k with
  | case1 => simp at hc
  | case2 => simp at hd
  | case3 c' d' s ih =>
    obtain ⟨b, hb, bs, hbs, rfl⟩ := (hexPairs_cons_cons_eq_some_iff c' d' s out).mp h
    cases k with
    | zero => cases hc; cases hd; exact hb.symm
    | succ k => exact ih hbs hc hd

/-- The second digit fits below the first one's four bits, so the two do not overlap. -/
theorem toNat_join2 (x y : Nibble) : (join2 x y).toNat = 16 * x.toNat + y.toNat := by
  revert x y; decide

theorem hexdec_of_odd {s : Bytes} (h : s.length % 2 = 1) : hexdec s = .error (.formatError .oddLength) :=
  if_pos (by omega)

/-- Even text with a byte that is no digit: the first check passes and the second does not (41_hex_codec.md R142). -/
theorem hexdec_of_not_isHex {s : Bytes} (heven : s.length % 2 = 0) (h : ∃ c ∈ s, isHex c = false) :
    hexdec s = .error (.formatError .badHex) := by
  have hall : s.all isHex = false := by simpa using h
  rcases hexdec_cases s with ⟨hodd, -⟩ | ⟨-, -, hbad⟩ | ⟨-, hhex, -⟩
  · exact absurd heven hodd
  · exact hbad
  · exact absurd hhex (by simp [hall])

/-- Even text of digits alone decodes (41_hex_codec.md R142). -/
theorem exists_hexdec {s : Bytes} (heven : s.length % 2 = 0) (h : ∀ c ∈ s, isHex c = true) : ∃ out, hexdec s = .ok out := by
  obtain ⟨out, hout⟩ := Option.isSome_iff_exists.mp ((hexPairs_isSome_iff s).mpr ⟨heven, List.all_eq_true.mpr h⟩)
  exact ⟨out, (hexdec_eq_ok_iff s out).mpr hout⟩

theorem hexDecResult_of_error {inp : Bytes} {e : Err} (h : hexdec inp = .error e) : hexDecResult inp = .error e := by
  rw [hexDecResult, h]

theorem hexDecResult_of_ok {inp out : Bytes} (h : hexdec inp = .ok out) : hexDecResult inp = .ok { out := some out } := by
  rw [hexDecResult, h]

/-- Settles O38: HEX_DEC delivers what `hexdec` gives in each of its three cases; a decoded byte is the value of its pair. -/
theorem hexDecReadsPairsAfterTwoChecks : Obligations.HexDecReadsPairsAfterTwoChecks := by
  intro a inp s hin
  have hexec : exec (.hexDec a inp) s = s.deliver (hexDecResult inp) := exec_of_admits rfl hin
  refine ⟨fun hodd => ?_, fun heven hbad => ?_, fun heven hhex => ?_⟩
  · rw [hexec, hexDecResult_of_error (hexdec_of_odd hodd)]
    rfl
  · rw [hexec, hexDecResult_of_error (hexdec_of_not_isHex heven hbad)]
    rfl
  · obtain ⟨out, hout⟩ := exists_hexdec heven hhex
    have hpairs : hexPairs inp = some out := (hexdec_eq_ok_iff inp out).mp hout
    refine ⟨out, ?_, length_hexPairs hpairs, fun k c d hc hd => ?_⟩
    · rw [hexec, hexDecResult_of_ok hout]
      rfl
    · obtain ⟨x, hx⟩ := exists_hexval (hhex c (List.mem_of_getElem? hc))
      obtain ⟨y, hy⟩ := exists_hexval (hhex d (List.mem_of_getElem? hd))
      have hbyte : out[k]? = some (join2 x y) := (getElem?_of_hexPairs hpairs hc hd).trans (val2_of_hexval hx hy)
      exact ⟨x, y, join2 x y, hx, hy, hbyte, toNat_join2 x y⟩

/-- The lower-case hex digits (30_encoding.md R67). -/
abbrev IsLowerHex (c : Byte) : Prop := 0x61#8 ≤ c ∧ c ≤ 0x66#8

/-- A lower-case digit made upper case; any other byte as it is (41_hex_codec.md R144). -/
def upperHex (c : Byte) : Byte := if IsLowerHex c then c - 0x20#8 else c

/-- The bytes that upper case leaves as they are. -/
theorem upperHex_eq_self_iff (c : Byte) : upperHex c = c ↔ ¬ IsLowerHex c := by
  unfold upperHex
  split_ifs with h
  · have hne : c - 0x20#8 ≠ c := by simp
    exact iff_of_false hne (not_not.mpr h)
  · exact iff_of_true rfl h

/-- The digit written for a digit's value is the digit in upper case. -/
theorem hexchar_eq_upperHex {c : Byte} {n : Nibble} (h : hexval c = some n) : hexchar n = upperHex c := by
  have hle : c ≤ 0x66#8 := by
    have hval := (hexval_eq_some_iff c n).mp h
    rw [BitVec.le_def]
    show c.toNat ≤ 0x66
    omega
  rw [hexchar_of_hexval h, upperHex]
  simp only [IsLowerHex, hle, and_true]

theorem extract_join2 (x y : Nibble) : (join2 x y).extractLsb' 4 4 = x ∧ (join2 x y).extractLsb' 0 4 = y := by
  revert x y; decide

/-- The two digits of a pair's value are the pair in upper case. -/
theorem hex2_of_val2 {c d b : Byte} (h : val2 [c, d] = some b) : hex2 b = [upperHex c, upperHex d] := by
  obtain ⟨-, hhex⟩ := (val2_isSome_iff [c, d]).mp (Option.isSome_of_eq_some h)
  have ⟨hcHex, hdHex⟩ : isHex c = true ∧ isHex d = true := by simpa using hhex
  obtain ⟨x, hx⟩ := exists_hexval hcHex
  obtain ⟨y, hy⟩ := exists_hexval hdHex
  obtain rfl : join2 x y = b := Option.some_inj.mp ((val2_of_hexval hx hy).symm.trans h)
  obtain ⟨hhigh, hlow⟩ := extract_join2 x y
  rw [hex2, hhigh, hlow, hexchar_eq_upperHex hx, hexchar_eq_upperHex hy]

/-- Encoding a decoded text gives it back in upper case (41_hex_codec.md R144). -/
theorem hexenc_of_hexPairs {s b : Bytes} (h : hexPairs s = some b) : hexenc b = s.map upperHex := by
  induction s using hexPairs.induct generalizing b with
  | case1 => cases h; rfl
  | case2 => cases h
  | case3 c d s ih =>
    obtain ⟨b, hb, bs, hbs, rfl⟩ := (hexPairs_cons_cons_eq_some_iff c d s b).mp h
    rw [hexenc_cons, hex2_of_val2 hb, ih hbs]
    rfl

theorem map_upperHex_eq_self_iff (s : Bytes) : s.map upperHex = s ↔ ∀ c ∈ s, ¬ IsLowerHex c := by
  have hmap : s.map upperHex = s.map id ↔ ∀ c ∈ s, upperHex c = c := List.map_inj_left
  rw [List.map_id] at hmap
  exact hmap.trans (forall₂_congr fun c _ => upperHex_eq_self_iff c)

/-- Settles O39: `hexPairs_hexenc` one way, and `hexenc_of_hexPairs` the other. -/
theorem hexCodecRoundTrips : Obligations.HexCodecRoundTrips := by
  refine ⟨fun b => (hexdec_eq_ok_iff (hexenc b) b).mpr (hexPairs_hexenc b), fun s b h => ?_⟩
  have hupper : hexenc b = s.map upperHex := hexenc_of_hexPairs ((hexdec_eq_ok_iff s b).mp h)
  refine ⟨?_, hupper⟩
  rw [hupper]
  exact map_upperHex_eq_self_iff s

end Sys2Proof.Machine
end

section
/-! PROOFS. From an instruction's result to its execution and to a whole transaction (20_memory.md R48). -/

namespace Sys2Proof.Machine

theorem exec_of_ok {i : Instr} {s : State} {p : Payload} (h : instrResult s.nInMax i = .ok p) :
    exec i s = .next (s.answered (okResponse p.r p.out p.hdr)) := by
  rw [exec_eq_deliver, h]
  rfl

theorem exec_of_error {i : Instr} {s : State} {e : Err} (h : instrResult s.nInMax i = .error e) :
    exec i s = .next (s.answered (errResponse e.status e.sub)) := by
  rw [exec_eq_deliver, h]
  rfl

theorem State.transact_of_ok {s : State} {q : Request} {p : Payload} (hidle : s.inFlight = none)
    (h : instrResult s.nInMax (decode q) = .ok p) : s.transact q = .next (s.answered (okResponse p.r p.out p.hdr)) :=
  State.transact_eq_answered hidle (exec_of_ok (s := s.present q) h)

/-- A host that can read OUT after an operation reads it of a success. -/
theorem exists_payload_of_readOut {i : Instr} {s t : State} {f : Bytes} (hexec : exec i s = .next t)
    (hread : t.readOut = .ok f) : ∃ p, instrResult s.nInMax i = .ok p ∧ p.out = some f := by
  cases hres : instrResult s.nInMax i with
  | error e =>
    cases hexec.symm.trans (exec_of_error hres)
    cases hread
  | ok p =>
    cases hexec.symm.trans (exec_of_ok hres)
    refine ⟨p, rfl, ?_⟩
    cases hout : p.out with
    | none => simp [State.readOut, okResponse, hout] at hread
    | some b => simpa [State.readOut, okResponse, hout] using hread

end Sys2Proof.Machine
end

section
/-! PROOFS. The frame serializer: its checks, and the frame it answers, piece by piece (42_frame.md R160 to R163). -/

namespace Sys2Proof.Machine

/-- The header FRAME_ENC writes for an info text of `n` characters (42_frame.md R160). -/
def encodedHdr (adr cmd : Byte) (n : Nat) : Hdr := ⟨verValue, adr, cid1Value, cmd, lenfield (BitVec.ofNat 12 n)⟩

/-- An info text FRAME_ENC accepts: the three checks of 42_frame.md R161 pass. -/
structure InfoText (t : Bytes) : Prop where
  length_le : t.length ≤ 4095
  all_isHex : ∀ c ∈ t, isHex c = true
  even : t.length % 2 = 0

/-- The header of an encoded frame, with the digits of its fixed values (30_encoding.md R73). -/
theorem headerText_encodedHdr (adr cmd : Byte) (n : Nat) : headerText (encodedHdr adr cmd n) =
    [0x32#8, 0x30#8] ++ hex2 adr ++ [0x34#8, 0x36#8] ++ hex2 cmd ++ hex4 (lenfield (BitVec.ofNat 12 n)) := by
  have hver : hex2 verValue = [0x32#8, 0x30#8] := by decide
  have hcid1 : hex2 cid1Value = [0x34#8, 0x36#8] := by decide
  rw [← hver, ← hcid1]
  rfl

theorem frameEncResult_of_long (adr cid2 : Byte) {t : Bytes} (h : 4095 < t.length) :
    frameEncResult adr cid2 t = .error (.encodingError .tooLong) :=
  if_pos h

theorem frameEncResult_of_not_isHex (adr cid2 : Byte) {t : Bytes} (hle : t.length ≤ 4095)
    (h : ∃ c ∈ t, isHex c = false) : frameEncResult adr cid2 t = .error (.encodingError .badInfoChar) := by
  have hbad : ¬ t.all isHex = true := by simpa using h
  exact (if_neg (Nat.not_lt.mpr hle)).trans (if_pos hbad)

theorem frameEncResult_of_odd (adr cid2 : Byte) {t : Bytes} (hle : t.length ≤ 4095) (hhex : ∀ c ∈ t, isHex c = true)
    (h : t.length % 2 = 1) : frameEncResult adr cid2 t = .error (.encodingError .oddInfo) :=
  (if_neg (Nat.not_lt.mpr hle)).trans
    ((if_neg (not_not.mpr (List.all_eq_true.mpr hhex))).trans (if_pos (by omega)))

theorem frameEncResult_of_infoText (adr cid2 : Byte) {t : Bytes} (h : InfoText t) :
    frameEncResult adr cid2 t = .ok { out := some (buildFrame adr cid2 t) } :=
  (if_neg (Nat.not_lt.mpr h.length_le)).trans
    ((if_neg (not_not.mpr (List.all_eq_true.mpr h.all_isHex))).trans (if_neg (not_not.mpr h.even)))

/-- FRAME_ENC succeeds on an info text alone, with its frame. -/
theorem frameEncResult_ok {adr cid2 : Byte} {t : Bytes} {p : Payload} (h : frameEncResult adr cid2 t = .ok p) :
    InfoText t ∧ p = { out := some (buildFrame adr cid2 t) } := by
  unfold frameEncResult at h
  split at h
  · cases h
  · next hlong =>
    split at h
    · cases h
    · next hhex =>
      split at h
      · cases h
      · next heven =>
        cases h
        exact ⟨⟨Nat.not_lt.mp hlong, List.all_eq_true.mp (not_not.mp hhex), not_not.mp heven⟩, rfl⟩

/-- What FRAME_ENC answers in OUT is the frame of an info text. -/
theorem eq_buildFrame_of_readOut {adr cid2 : Byte} {t f : Bytes} {s s' : State}
    (hexec : exec (.frameEnc adr cid2 t) s = .next s') (hread : s'.readOut = .ok f) :
    InfoText t ∧ f = buildFrame adr cid2 t := by
  obtain ⟨p, hres, hout⟩ := exists_payload_of_readOut hexec hread
  obtain ⟨htext, rfl⟩ := frameEncResult_ok (checkInput_ok hres)
  exact ⟨htext, Option.some_inj.mp hout.symm⟩

/-- Settles O40: the four results of FRAME_ENC, delivered. -/
theorem frameEncBuildsTheFrameAfterThreeChecks : Obligations.FrameEncBuildsTheFrameAfterThreeChecks := by
  intro adr cid2 t s hin
  have hexec : exec (.frameEnc adr cid2 t) s = s.deliver (frameEncResult adr cid2 t) := exec_of_admits rfl hin
  refine ⟨fun hlong => ?_, fun hle hbad => ?_, fun hle hhex hodd => ?_, fun hle hhex heven => ?_⟩
  · rw [hexec, frameEncResult_of_long adr cid2 hlong]
    rfl
  · rw [hexec, frameEncResult_of_not_isHex adr cid2 hle hbad]
    rfl
  · rw [hexec, frameEncResult_of_odd adr cid2 hle hhex hodd]
    rfl
  · rw [hexec, frameEncResult_of_infoText adr cid2 ⟨hle, hhex, heven⟩]
    rfl

/-- The layout of a frame: header, info and checksum field between the delimiters (30_encoding.md R72). -/
theorem buildFrame_eq (adr cmd : Byte) (t : Bytes) : buildFrame adr cmd t =
    [soi] ++ headerText (encodedHdr adr cmd t.length) ++ t ++ hex4 (chk16 (frameData adr cmd t)) ++ [eoi] := by
  simp [buildFrame, wrapFrame, frameData_eq, encodedHdr]

@[simp] theorem length_buildFrame (adr cmd : Byte) (t : Bytes) : (buildFrame adr cmd t).length = 18 + t.length := by
  rw [buildFrame, length_wrapFrame, length_frameData]
  omega

theorem getElem?_buildFrame_zero (adr cmd : Byte) (t : Bytes) : (buildFrame adr cmd t)[0]? = some soi := rfl

theorem getElem?_buildFrame_last (adr cmd : Byte) (t : Bytes) :
    (buildFrame adr cmd t)[17 + t.length]? = some eoi := by
  have hlen : (soi :: frameData adr cmd t ++ hex4 (chk16 (frameData adr cmd t))).length = 17 + t.length := by
    simp
    omega
  rw [buildFrame, wrapFrame, ← hlen]
  exact List.getElem?_concat_length

theorem seg_buildFrame_header (adr cmd : Byte) (t : Bytes) :
    seg (buildFrame adr cmd t) 1 12 = headerText (encodedHdr adr cmd t.length) := by
  have h := seg_append [soi] (headerText (encodedHdr adr cmd t.length))
    (t ++ hex4 (chk16 (frameData adr cmd t)) ++ [eoi]) 1 12 rfl (length_headerText _)
  simpa [buildFrame_eq] using h

theorem seg_buildFrame_data (adr cmd : Byte) (t : Bytes) :
    seg (buildFrame adr cmd t) 1 (12 + t.length) = frameData adr cmd t := by
  have h := seg_append [soi] (frameData adr cmd t) (hex4 (chk16 (frameData adr cmd t)) ++ [eoi]) 1 (12 + t.length) rfl
    (length_frameData adr cmd t)
  simpa [buildFrame, wrapFrame] using h

theorem seg_buildFrame_info (adr cmd : Byte) (t : Bytes) : seg (buildFrame adr cmd t) 13 t.length = t := by
  have h := seg_append ([soi] ++ headerText (encodedHdr adr cmd t.length)) t
    (hex4 (chk16 (frameData adr cmd t)) ++ [eoi]) 13 t.length (by simp) rfl
  simpa [buildFrame_eq] using h

theorem seg_buildFrame_checksum (adr cmd : Byte) (t : Bytes) :
    seg (buildFrame adr cmd t) (13 + t.length) 4 = hex4 (chk16 (frameData adr cmd t)) := by
  rw [buildFrame_eq]
  exact seg_append _ _ _ _ _ (by simp; omega) (length_hex4 _)

/-- The length field stands at the end of the header. -/
theorem seg_buildFrame_lengthField (adr cmd : Byte) (t : Bytes) :
    seg (buildFrame adr cmd t) 9 4 = hex4 (lenfield (BitVec.ofNat 12 t.length)) := by
  rw [← seg_seg (buildFrame adr cmd t) 1 12 8 4 (by omega), seg_buildFrame_header]
  rfl

/-- Two adjacent subsequences make one. -/
theorem seg_append_seg (s : Bytes) (i a b : Nat) : seg s i a ++ seg s (i + a) b = seg s i (a + b) := by
  simp [seg, List.take_add]

/-- The characters between the delimiters. -/
theorem seg_buildFrame_body (adr cmd : Byte) (t : Bytes) : seg (buildFrame adr cmd t) 1 (16 + t.length) =
    headerText (encodedHdr adr cmd t.length) ++ t ++ hex4 (chk16 (frameData adr cmd t)) := by
  have hlen : 16 + t.length = 12 + t.length + 4 := by omega
  have hpos : 13 + t.length = 1 + (12 + t.length) := by omega
  rw [hlen, ← seg_append_seg, ← hpos, seg_buildFrame_data, seg_buildFrame_checksum]
  rfl

theorem exists_hexchar_of_mem_hex4 {w : Word} {c : Byte} (h : c ∈ hex4 w) : ∃ n, c = hexchar n := by
  simp only [hex4, List.mem_cons, List.not_mem_nil, or_false] at h
  rcases h with h | h | h | h <;> exact ⟨_, h⟩

theorem exists_hexchar_of_mem_hex2 {b c : Byte} (h : c ∈ hex2 b) : ∃ n, c = hexchar n := by
  simp only [hex2, List.mem_cons, List.not_mem_nil, or_false] at h
  rcases h with h | h <;> exact ⟨_, h⟩

/-- Every header character is a digit the FCB writes. -/
theorem exists_hexchar_of_mem_headerText {h : Hdr} {c : Byte} (hc : c ∈ headerText h) : ∃ n, c = hexchar n := by
  simp only [headerText, List.mem_append] at hc
  rcases hc with (((hc | hc) | hc) | hc) | hc
  exacts [exists_hexchar_of_mem_hex2 hc, exists_hexchar_of_mem_hex2 hc, exists_hexchar_of_mem_hex2 hc,
    exists_hexchar_of_mem_hex2 hc, exists_hexchar_of_mem_hex4 hc]

/-- Settles O41: the pieces of the frame, whose header and checksum field hold digits the FCB writes. -/
theorem encodedFrameHasItsShape : Obligations.EncodedFrameHasItsShape := by
  intro adr cid2 t f s s' hexec hread
  obtain ⟨htext, rfl⟩ := eq_buildFrame_of_readOut hexec hread
  refine ⟨length_buildFrame adr cid2 t, getElem?_buildFrame_zero adr cid2 t, getElem?_buildFrame_last adr cid2 t,
    (seg_buildFrame_header adr cid2 t).trans (headerText_encodedHdr adr cid2 t.length),
    seg_buildFrame_info adr cid2 t, ?_, fun c hc => ?_, fun c hc => ?_⟩
  · rw [seg_buildFrame_checksum, seg_buildFrame_data, val4_hex4]
  · rw [seg_buildFrame_body, List.mem_append, List.mem_append] at hc
    rcases hc with (hc | hc) | hc
    · obtain ⟨n, rfl⟩ := exists_hexchar_of_mem_headerText hc
      exact isHex_hexchar n
    · exact htext.all_isHex c hc
    · obtain ⟨n, rfl⟩ := exists_hexchar_of_mem_hex4 hc
      exact isHex_hexchar n
  · rw [seg_buildFrame_header, seg_buildFrame_checksum, List.mem_append] at hc
    rcases hc with hc | hc
    · obtain ⟨n, rfl⟩ := exists_hexchar_of_mem_headerText hc
      exact hexchar_lt n
    · obtain ⟨n, rfl⟩ := exists_hexchar_of_mem_hex4 hc
      exact hexchar_lt n

/-- The operand of LEN_ENC for the length of an info text has that length in its low 12 bits. -/
theorem lenid_ofNat (n : Nat) : lenid (BitVec.ofNat 16 n) = BitVec.ofNat 12 n := by
  apply BitVec.eq_of_toNat_eq
  rw [toNat_lenid, BitVec.toNat_ofNat, BitVec.toNat_ofNat]
  omega

/-- Settles O42: what each unit answers, by its own statement, is the piece of the frame. -/
theorem frameEncIsComposedOfTheUnits : Obligations.FrameEncIsComposedOfTheUnits := by
  intro adr cid2 t f s s' a hexec hread
  obtain ⟨htext, rfl⟩ := eq_buildFrame_of_readOut hexec hread
  have hle : t.length ≤ 4095 := htext.length_le
  refine ⟨fun b => ?_, ?_, ?_, ?_⟩
  · have hadmits : s.nInMax.admits [b].length = true := InLimit.admits_of_le s.nInMax (by simp)
    exact ⟨_, (hexEncWritesTwoDigitsPerByte a [b] s hadmits).1, rfl⟩
  · have hadmits : s.nInMax.admits ([] : Bytes).length = true := InLimit.admits_of_le s.nInMax (by simp)
    have hfits : (BitVec.ofNat 16 t.length).toNat ≤ 0x0FFF := by
      rw [BitVec.toNat_ofNat]
      omega
    have hlen := (lenEncAnswersTheLengthField (BitVec.ofNat 16 t.length) [] s hadmits).1 hfits
    refine ⟨_, lenfield (lenid (BitVec.ofNat 16 t.length)), hlen.1, rfl, ?_⟩
    rw [seg_buildFrame_lengthField, lenid_ofNat]
  · rw [seg_buildFrame_lengthField, seg_buildFrame_checksum]
    have hadmits : s.nInMax.admits (frameData adr cid2 t).length = true :=
      InLimit.admits_of_le s.nInMax (by rw [length_frameData]; omega)
    exact ⟨_, chk16 (frameData adr cid2 t), (frameCsumAnswersTheChecksum a _ s hadmits).1, rfl, rfl⟩
  · rw [seg_buildFrame_lengthField, seg_buildFrame_checksum, buildFrame_eq]
    simp [headerText, encodedHdr, soi, eoi, verValue, cid1Value]

end Sys2Proof.Machine
end

section
/-! PROOFS. The frame deserializer: its eleven checks in their order, and what an accepted frame gives (42_frame.md R170 to
R173). -/

namespace Sys2Proof.Machine

theorem exec_frameDec_of_error (a : Word) {inp : Bytes} {s : State} {e : Err} (hin : s.nInMax.admits inp.length = true)
    (h : frameDecResult inp = .error e) :
    exec (.frameDec a inp) s = .next (s.answered (errResponse e.status e.sub)) :=
  exec_of_error ((checkInput_of_admits hin _).trans h)

theorem exec_frameDec_of_ok (a : Word) {inp : Bytes} {s : State} {p : Payload} (hin : s.nInMax.admits inp.length = true)
    (h : frameDecResult inp = .ok p) :
    exec (.frameDec a inp) s = .next (s.answered (okResponse p.r p.out p.hdr)) :=
  exec_of_ok ((checkInput_of_admits hin _).trans h)

theorem frameDecResult_of_not_started {inp : Bytes} (h : inp[0]? ≠ some soi) :
    frameDecResult inp = .error (.formatError .noStart) :=
  if_pos (.inr h)

/-- The first check passes where the start character stands. -/
theorem not_noStart_of_started {inp : Bytes} (h : inp[0]? = some soi) : ¬ (inp.length = 0 ∨ inp[0]? ≠ some soi) := by
  have hne : inp.length ≠ 0 := by
    intro hlen
    simp [List.eq_nil_of_length_eq_zero hlen] at h
  exact not_or.mpr ⟨hne, not_not.mpr h⟩

theorem frameDecResult_of_not_ended {inp : Bytes} (hstart : inp[0]? = some soi)
    (h : ¬ (2 ≤ inp.length ∧ inp[inp.length - 1]? = some eoi)) : frameDecResult inp = .error (.formatError .noEnd) := by
  have hend : inp.length < 2 ∨ inp[inp.length - 1]? ≠ some eoi := by
    rwa [not_and_or, Nat.not_le] at h
  exact (if_neg (not_noStart_of_started hstart)).trans (if_pos hend)

theorem frameDecResult_of_short {inp : Bytes} (hstart : inp[0]? = some soi) (htwo : 2 ≤ inp.length)
    (hend : inp[inp.length - 1]? = some eoi) (h : inp.length < 6) :
    frameDecResult inp = .error (.incompleteFrame .noChecksum) := by
  have hended : ¬ (inp.length < 2 ∨ inp[inp.length - 1]? ≠ some eoi) :=
    not_or.mpr ⟨Nat.not_lt.mpr htwo, not_not.mpr hend⟩
  exact (if_neg (not_noStart_of_started hstart)).trans ((if_neg hended).trans (if_pos (by omega)))

/-- A checksum field with a byte that is no digit has no value. -/
theorem val4_eq_none_of_not_isHex {s : Bytes} (h : ∃ c ∈ s, isHex c = false) : val4 s = none := by
  rw [← Option.not_isSome_iff_eq_none, val4_isSome_iff]
  rintro ⟨-, hall⟩
  obtain ⟨c, hc, hbad⟩ := h
  exact absurd (List.all_eq_true.mp hall c hc) (by simp [hbad])

theorem length_of_val4 {s : Bytes} {w : Word} (h : val4 s = some w) : s.length = 4 :=
  ((val4_isSome_iff s).mp (Option.isSome_of_eq_some h)).1

theorem frameDecResult_delimited_of_none (d : Bytes) {ck : Bytes} (hlen : ck.length = 4) (h : val4 ck = none) :
    frameDecResult (soi :: d ++ ck ++ [eoi]) = .error (.formatError .badHexChecksum) := by
  rw [frameDecResult_delimited d ck hlen, h]

theorem frameDecResult_delimited_of_ne {d ck : Bytes} {v : Word} (hv : val4 ck = some v) (h : chk16 d ≠ v) :
    frameDecResult (soi :: d ++ ck ++ [eoi]) = .error (.checksumMismatch .frame) := by
  rw [frameDecResult_delimited d ck (length_of_val4 hv), hv]
  exact if_pos h

theorem frameDecResult_delimited_of_eq {d ck : Bytes} (h : val4 ck = some (chk16 d)) :
    frameDecResult (soi :: d ++ ck ++ [eoi]) = dataDecResult d := by
  rw [frameDecResult_delimited d ck (length_of_val4 h), h]
  exact if_neg (not_not.mpr rfl)

theorem dataDecResult_of_short {d : Bytes} (h : d.length < 12) :
    dataDecResult d = .error (.incompleteFrame .shortHeader) :=
  if_pos h

/-- Steps 8 to 11 of FRAME_DEC, on a decoded header and the info characters (42_frame.md R170). -/
def infoDecResult (h : Hdr) (t : Bytes) : Except Err Payload :=
  if lchksum h.lenf ≠ lchk (lenid h.lenf) then .error (.checksumMismatch .length)
  else if t.length ≠ (lenid h.lenf).toNat then .error (.formatError .lengthMismatch)
  else (hexdec t).map fun b => { out := some b, hdr := some h }

/-- The parts of data with a header's twelve characters in front. -/
theorem seg_header_append {hs : Bytes} (h12 : hs.length = 12) (t : Bytes) :
    seg (hs ++ t) 0 12 = hs ∧ seg (hs ++ t) 12 ((hs ++ t).length - 12) = t := by
  simp [seg, ← h12]

theorem dataDecResult_of_not_isHex {hs : Bytes} (h12 : hs.length = 12) (h : ∃ c ∈ hs, isHex c = false) (t : Bytes) :
    dataDecResult (hs ++ t) = .error (.formatError .badHexHeader) := by
  have hnone : headerOf hs = none := by
    rw [← Option.not_isSome_iff_eq_none, headerOf_isSome_iff h12]
    simpa using h
  have hlen : ¬ (hs ++ t).length < 12 := by simp [h12]
  rw [dataDecResult, if_neg hlen, (seg_header_append h12 t).1, hnone]

/-- Where the header decodes, the steps from 8 on decide. -/
theorem dataDecResult_of_headerOf {hs : Bytes} {h : Hdr} (h12 : hs.length = 12) (hh : headerOf hs = some h) (t : Bytes) :
    dataDecResult (hs ++ t) = infoDecResult h t := by
  have hlen : ¬ (hs ++ t).length < 12 := by simp [h12]
  rw [dataDecResult, if_neg hlen, (seg_header_append h12 t).1, (seg_header_append h12 t).2, hh, infoDecResult]
  dsimp only
  cases hexdec t <;> rfl

theorem infoDecResult_of_lchksum_ne {h : Hdr} (hne : lchksum h.lenf ≠ lchk (lenid h.lenf)) (t : Bytes) :
    infoDecResult h t = .error (.checksumMismatch .length) :=
  if_pos hne

theorem infoDecResult_of_length_ne {h : Hdr} {t : Bytes} (hvalid : lchksum h.lenf = lchk (lenid h.lenf))
    (hne : t.length ≠ (lenid h.lenf).toNat) : infoDecResult h t = .error (.formatError .lengthMismatch) :=
  (if_neg (not_not.mpr hvalid)).trans (if_pos hne)

/-- Where the length field is valid and counts the info characters, decoding them decides. -/
theorem infoDecResult_of_length_eq {h : Hdr} {t : Bytes} (hvalid : lchksum h.lenf = lchk (lenid h.lenf))
    (hlen : t.length = (lenid h.lenf).toNat) :
    infoDecResult h t = (hexdec t).map fun b => { out := some b, hdr := some h } :=
  (if_neg (not_not.mpr hvalid)).trans (if_neg (not_not.mpr hlen))

/-- A delimited IN is looked at as its data and its checksum field. -/
theorem frameDecResult_of_ends {inp : Bytes} (h6 : 6 ≤ inp.length) (hstart : inp[0]? = some soi)
    (hend : inp[inp.length - 1]? = some eoi) : frameDecResult inp =
      frameDecResult (soi :: seg inp 1 (inp.length - 6) ++ seg inp (inp.length - 5) 4 ++ [eoi]) :=
  congrArg frameDecResult (delimited_of_ends h6 hstart hend)

theorem frameDecResult_of_not_isHex_checksum {inp : Bytes} (h6 : 6 ≤ inp.length) (hstart : inp[0]? = some soi)
    (hend : inp[inp.length - 1]? = some eoi) (h : ∃ c ∈ seg inp (inp.length - 5) 4, isHex c = false) :
    frameDecResult inp = .error (.formatError .badHexChecksum) :=
  (frameDecResult_of_ends h6 hstart hend).trans
    (frameDecResult_delimited_of_none _ (length_seg_of_le (by omega)) (val4_eq_none_of_not_isHex h))

theorem frameDecResult_of_checksum {inp : Bytes} (h6 : 6 ≤ inp.length) (hstart : inp[0]? = some soi)
    (hend : inp[inp.length - 1]? = some eoi)
    (hck : val4 (seg inp (inp.length - 5) 4) = some (chk16 (seg inp 1 (inp.length - 6)))) :
    frameDecResult inp = dataDecResult (seg inp 1 (inp.length - 6)) :=
  (frameDecResult_of_ends h6 hstart hend).trans (frameDecResult_delimited_of_eq hck)

/-- The data of a frame long enough for a header: its twelve characters, then the info characters. -/
theorem seg_data_eq {inp : Bytes} (h18 : 18 ≤ inp.length) :
    seg inp 1 (inp.length - 6) = seg inp 1 12 ++ seg inp 13 (inp.length - 18) := by
  rw [seg_append_seg inp 1 12 (inp.length - 18)]
  congr 1
  omega

theorem dataDecResult_seg_of_short {inp : Bytes} (h : inp.length < 18) :
    dataDecResult (seg inp 1 (inp.length - 6)) = .error (.incompleteFrame .shortHeader) :=
  dataDecResult_of_short (by rw [length_seg]; omega)

theorem dataDecResult_seg_of_not_isHex {inp : Bytes} (h18 : 18 ≤ inp.length)
    (h : ∃ c ∈ seg inp 1 12, isHex c = false) :
    dataDecResult (seg inp 1 (inp.length - 6)) = .error (.formatError .badHexHeader) := by
  rw [seg_data_eq h18, dataDecResult_of_not_isHex (length_seg_of_le (by omega)) h]

/-- Twelve hex digits decode to a header, whose fields are the values at their offsets, and the steps from 8 on decide
(42_frame.md R170, R172). -/
theorem exists_hdr_dataDecResult_seg {inp : Bytes} {f : Word} (h18 : 18 ≤ inp.length)
    (hhex : ∀ c ∈ seg inp 1 12, isHex c = true) (hf : val4 (seg inp 9 4) = some f) :
    ∃ h, dataDecResult (seg inp 1 (inp.length - 6)) = infoDecResult h (seg inp 13 (inp.length - 18)) ∧
      val2 (seg inp 1 2) = some h.ver ∧ val2 (seg inp 3 2) = some h.adr ∧ val2 (seg inp 5 2) = some h.cid1 ∧
      val2 (seg inp 7 2) = some h.cid2 ∧ h.lenf = f := by
  have h12 : (seg inp 1 12).length = 12 := length_seg_of_le (by omega)
  obtain ⟨h, hh⟩ := Option.isSome_iff_exists.mp ((headerOf_isSome_iff h12).mpr (List.all_eq_true.mpr hhex))
  obtain ⟨hver, hadr, hcid1, hcid2, hlenf⟩ := headerOf_eq_some hh
  rw [seg_seg _ _ _ _ _ (by decide)] at hver hadr hcid1 hcid2 hlenf
  refine ⟨h, ?_, hver, hadr, hcid1, hcid2, Option.some_inj.mp (hlenf.symm.trans hf)⟩
  rw [seg_data_eq h18, dataDecResult_of_headerOf h12 hh]

/-- The info characters between the header and the checksum field. -/
theorem length_seg_info {inp : Bytes} (h18 : 18 ≤ inp.length) :
    (seg inp 13 (inp.length - 18)).length = inp.length - 18 :=
  length_seg_of_le (by omega)

/-- Settles O45: the checks one after the other, each on what the earlier ones let through. -/
theorem frameDecReportsTheFirstFailingCheck : Obligations.FrameDecReportsTheFirstFailingCheck := by
  intro a inp s hin n fails started ended
  have report {e : Err} (h : frameDecResult inp = .error e) : fails e.status e.sub := exec_frameDec_of_error a hin h
  refine ⟨fun hstart => report (frameDecResult_of_not_started hstart),
    fun hstart hend => report (frameDecResult_of_not_ended hstart hend),
    fun hstart hend h6 => report (frameDecResult_of_short hstart hend.1 hend.2 h6),
    fun hstart hend h6 hbad => report (frameDecResult_of_not_isHex_checksum h6 hstart hend.2 hbad),
    fun ck hstart hend h6 hck => ⟨fun hne => ?_, fun heq => ?_⟩⟩
  · exact report ((frameDecResult_of_ends h6 hstart hend.2).trans (frameDecResult_delimited_of_ne hck hne))
  · subst heq
    have hdata := frameDecResult_of_checksum h6 hstart hend.2 hck
    refine ⟨fun hshort => report (hdata.trans (dataDecResult_seg_of_short hshort)),
      fun h18 hbad => report (hdata.trans (dataDecResult_seg_of_not_isHex h18 hbad)), fun f h18 hhex hf => ?_⟩
    obtain ⟨h, hinfo, -, -, -, -, rfl⟩ := exists_hdr_dataDecResult_seg h18 hhex hf
    have hdec := hdata.trans hinfo
    have hlen : (seg inp 13 (inp.length - 18)).length = inp.length - 18 := length_seg_info h18
    refine ⟨fun hne => report (hdec.trans (infoDecResult_of_lchksum_ne hne _)),
      fun hvalid => ⟨fun hne => ?_, fun hcount => ?_⟩⟩
    · exact report (hdec.trans (infoDecResult_of_length_ne hvalid (by rwa [hlen])))
    · rw [infoDecResult_of_length_eq hvalid (hlen.trans hcount)] at hdec
      refine ⟨fun hodd => ?_, fun heven hbad => ?_⟩
      · rw [hexdec_of_odd (by rwa [hlen])] at hdec
        exact report hdec
      · rw [hexdec_of_not_isHex (by rwa [hlen]) hbad] at hdec
        exact report hdec

/-- Settles O46: no check fails, so the header's fields and the decoded info characters are delivered. -/
theorem frameDecAnswersHeaderAndInfo : Obligations.FrameDecAnswersHeaderAndInfo := by
  intro a inp f s hin h18 hstart hend hck hhex hf hvalid hcount heven hinfoHex
  obtain ⟨h, hinfo, hver, hadr, hcid1, hcid2, rfl⟩ := exists_hdr_dataDecResult_seg h18 hhex hf
  have hlen := length_seg_info h18
  obtain ⟨out, hout⟩ := exists_hexdec (by omega) hinfoHex
  have hdec : frameDecResult inp = .ok { out := some out, hdr := some h } := by
    rw [frameDecResult_of_checksum (by omega) hstart hend hck, hinfo,
      infoDecResult_of_length_eq hvalid (hlen.trans hcount), hout]
    rfl
  have hhalf : 2 * out.length = (seg inp 13 (inp.length - 18)).length :=
    length_hexPairs ((hexdec_eq_ok_iff _ _).mp hout)
  exact ⟨h, out, exec_frameDec_of_ok a hin hdec, hver, hadr, hcid1, hcid2, rfl, hout, hhalf.trans (hlen.trans hcount)⟩

end Sys2Proof.Machine
end

section
/-! PROOFS. The laws of the pair: the round trip, and what a frame with one byte replaced gives (42_frame.md R175, R176). -/

namespace Sys2Proof.Machine

/-- An info text is the digits of some bytes. -/
theorem InfoText.exists_hexdec {t : Bytes} (h : InfoText t) : ∃ b, hexdec t = .ok b :=
  Machine.exists_hexdec h.even h.all_isHex

/-- The written length field is valid and counts the info characters, so decoding them decides. -/
theorem dataDecResult_frameData (adr cmd : Byte) {t b : Bytes} (hle : t.length ≤ 4095) (hb : hexdec t = .ok b) :
    dataDecResult (frameData adr cmd t) = .ok { out := some b, hdr := some (encodedHdr adr cmd t.length) } := by
  have hlenid : lenid (encodedHdr adr cmd t.length).lenf = BitVec.ofNat 12 t.length := lenid_lenfield _
  have hvalid : lchksum (encodedHdr adr cmd t.length).lenf = lchk (lenid (encodedHdr adr cmd t.length).lenf) := by
    rw [hlenid]
    exact lchksum_lenfield _
  have hcount : t.length = (lenid (encodedHdr adr cmd t.length).lenf).toNat := by
    rw [hlenid, BitVec.toNat_ofNat]
    omega
  calc dataDecResult (frameData adr cmd t)
      = infoDecResult (encodedHdr adr cmd t.length) t :=
        frameData_eq adr cmd t ▸ dataDecResult_of_headerOf (length_headerText _) (headerOf_headerText _) t
    _ = .ok { out := some b, hdr := some (encodedHdr adr cmd t.length) } := by
        rw [infoDecResult_of_length_eq hvalid hcount, hb]
        rfl

/-- FRAME_DEC's result inverts FRAME_ENC's (42_frame.md R175). -/
theorem frameDecResult_buildFrame (adr cmd : Byte) {t b : Bytes} (hle : t.length ≤ 4095) (hb : hexdec t = .ok b) :
    frameDecResult (buildFrame adr cmd t) = .ok { out := some b, hdr := some (encodedHdr adr cmd t.length) } :=
  (frameDecResult_wrapFrame _).trans (dataDecResult_frameData adr cmd hle hb)

/-- Every N_IN_MAX admits an encoded frame, and any sequence as long (30_encoding.md R77). -/
theorem admits_of_length_eq_frame (lim : InLimit) {t inp : Bytes} (ht : InfoText t) (h : inp.length = 18 + t.length) :
    lim.admits inp.length = true :=
  InLimit.admits_of_le lim (by have := ht.length_le; omega)

theorem transact_frameEnc {s : State} (adr cid2 : Byte) {t : Bytes} (hidle : s.inFlight = none) (ht : InfoText t) :
    s.transact (encode (.frameEnc adr cid2 t)) =
      .next (s.answered (okResponse none (some (buildFrame adr cid2 t)) none)) := by
  have hadmits : s.nInMax.admits t.length = true := InLimit.admits_of_le _ (by have := ht.length_le; omega)
  have hdecode : decode (encode (.frameEnc adr cid2 t)) = .frameEnc adr cid2 t := Laws.DecodeEncode.frameEnc adr cid2 t
  refine State.transact_of_ok hidle (p := { out := some (buildFrame adr cid2 t) }) ?_
  rw [hdecode]
  exact (checkInput_of_admits hadmits _).trans (frameEncResult_of_infoText adr cid2 ht)

theorem transact_frameDec_buildFrame {s : State} (a : Word) (adr cid2 : Byte) {t b : Bytes} (hidle : s.inFlight = none)
    (ht : InfoText t) (hb : hexdec t = .ok b) : s.transact (encode (.frameDec a (buildFrame adr cid2 t))) =
      .next (s.answered (okResponse none (some b) (some (encodedHdr adr cid2 t.length)))) := by
  have hadmits := admits_of_length_eq_frame s.nInMax ht (length_buildFrame adr cid2 t)
  refine State.transact_of_ok hidle (p := { out := some b, hdr := some (encodedHdr adr cid2 t.length) }) ?_
  exact (checkInput_of_admits hadmits _).trans (frameDecResult_buildFrame adr cid2 ht.length_le hb)

/-- The digits of at most 2047 bytes are an info text. -/
theorem infoText_hexenc {b : Bytes} (h : b.length ≤ 2047) : InfoText (hexenc b) where
  length_le := by rw [length_hexenc]; omega
  all_isHex := List.all_eq_true.mp (all_isHex_hexenc b)
  even := by rw [length_hexenc]; omega

/-- Settles O49: both forms are the two transactions on an info text, which for binary info is its digits. -/
theorem frameDecodesWhatWasEncoded : Obligations.FrameDecodesWhatWasEncoded := by
  refine ⟨fun adr cid2 b a s hidle hle => ?_, fun adr cid2 text a s hidle hle heven hhex => ?_⟩
  · have ht : InfoText (hexenc b) := infoText_hexenc hle
    have hb : hexdec (hexenc b) = .ok b := (hexdec_eq_ok_iff _ b).mpr (hexPairs_hexenc b)
    rw [← length_hexenc]
    exact ⟨_, buildFrame adr cid2 (hexenc b), _, transact_frameEnc adr cid2 hidle ht, rfl,
      transact_frameDec_buildFrame a adr cid2 rfl ht hb, rfl, rfl, rfl⟩
  · have ht : InfoText text := ⟨by omega, hhex, heven⟩
    obtain ⟨b, hb⟩ := ht.exists_hexdec
    exact ⟨_, buildFrame adr cid2 text, _, b, transact_frameEnc adr cid2 hidle ht, rfl,
      transact_frameDec_buildFrame a adr cid2 rfl ht hb, rfl, hb, rfl, rfl⟩

/-- One changed byte changes the sum by less than 256, so it changes the checksum. -/
theorem chk16_set_ne {d : Bytes} {j : Nat} {old new : Byte} (h : d[j]? = some old) (hne : new ≠ old) :
    chk16 (d.set j new) ≠ chk16 d := by
  have hsum := byteSum_set d j new old h
  have hold := old.isLt
  have hnew := new.isLt
  have hne' : new.toNat ≠ old.toNat := mt BitVec.eq_of_toNat_eq hne
  rw [ne_eq, chk16_eq_iff]
  omega

/-- The values of the four digits of a 16-bit value, the first one high. -/
def nibbles (w : Word) : List Nibble :=
  [w.extractLsb' 12 4, w.extractLsb' 8 4, w.extractLsb' 4 4, w.extractLsb' 0 4]

/-- Four joined digits are read back: the shifted digits do not overlap, as each of their bits shows. -/
theorem nibbles_join4 (x y z w : Nibble) : nibbles (join4 x y z w) = [x, y, z, w] := by
  simp only [nibbles, List.cons.injEq, and_true]
  refine ⟨?_, ?_, ?_, ?_⟩ <;> ext i hi <;> interval_cases i <;> simp [join4]

/-- A four-digit field is read digit by digit: its value depends on the values of its digits alone. -/
theorem val4_eq_some_iff (s : Bytes) (v : Word) : val4 s = some v ↔ s.map hexval = (nibbles v).map some := by
  constructor
  · intro h
    obtain ⟨hlen, hall⟩ := (val4_isSome_iff s).mp (Option.isSome_of_eq_some h)
    match s, hlen with
    | [c, d, e, f], _ =>
      have hhex : ∀ x ∈ [c, d, e, f], isHex x = true := List.all_eq_true.mp hall
      obtain ⟨x, hx⟩ := exists_hexval (hhex c (by simp))
      obtain ⟨y, hy⟩ := exists_hexval (hhex d (by simp))
      obtain ⟨z, hz⟩ := exists_hexval (hhex e (by simp))
      obtain ⟨w, hw⟩ := exists_hexval (hhex f (by simp))
      obtain rfl : join4 x y z w = v := Option.some_inj.mp ((val4_of_hexval hx hy hz hw).symm.trans h)
      simp [nibbles_join4, hx, hy, hz, hw]
  · intro h
    have hlen : s.length = 4 := by simpa [nibbles] using congrArg List.length h
    match s, hlen with
    | [c, d, e, f], _ =>
      simp only [nibbles, List.map_cons, List.map_nil, List.cons.injEq, and_true] at h
      obtain ⟨hc, hd, he, hf⟩ := h
      rw [val4_of_hexval hc hd he hf, join4_extract]

/-- Replacing an element leaves a list as it is exactly when it is replaced by itself. -/
theorem set_eq_self_iff {α : Type} {l : List α} {k : Nat} {x : α} (y : α) (hk : l[k]? = some x) :
    l.set k y = l ↔ y = x := by
  obtain ⟨hlt, hx⟩ := List.getElem?_eq_some_iff.mp hk
  constructor
  · intro h
    have hy : l[k]? = some y := by
      rw [← h]
      exact List.getElem?_set_self hlt
    exact Option.some_inj.mp (hy.symm.trans hk)
  · rintro rfl
    subst hx
    exact List.set_getElem_self hlt

/-- With one digit replaced, a field keeps its value exactly when the digit keeps its own. -/
theorem val4_set_eq_some_iff {ck : Bytes} {v : Word} {k : Nat} {old : Byte} (new : Byte) (hv : val4 ck = some v)
    (hk : ck[k]? = some old) : val4 (ck.set k new) = some v ↔ hexval new = hexval old := by
  have hval : (ck.map hexval)[k]? = some (hexval old) := by
    rw [List.getElem?_map, hk]
    rfl
  rw [val4_eq_some_iff] at hv ⊢
  rw [List.map_set, ← hv]
  exact set_eq_self_iff (hexval new) hval

/-- A field with a digit replaced by another digit still has a value. -/
theorem exists_val4_set {ck : Bytes} {v : Word} {new : Byte} (k : Nat) (hv : val4 ck = some v) (hnew : isHex new = true) :
    ∃ v', val4 (ck.set k new) = some v' := by
  obtain ⟨hlen, hall⟩ := (val4_isSome_iff ck).mp (Option.isSome_of_eq_some hv)
  refine Option.isSome_iff_exists.mp ((val4_isSome_iff _).mpr ⟨by rw [List.length_set, hlen], ?_⟩)
  refine List.all_eq_true.mpr fun c hc => ?_
  rcases List.mem_or_eq_of_mem_set hc with hc | rfl
  · exact List.all_eq_true.mp hall c hc
  · exact hnew

/-- Replacing a data character replaces it in the data. -/
theorem exists_set_data {adr cmd : Byte} {t : Bytes} {j : Nat} {old : Byte} (new : Byte)
    (hold : (buildFrame adr cmd t)[j]? = some old) (hfrom : 1 ≤ j) (hto : j ≤ 12 + t.length) :
    ∃ k, (frameData adr cmd t)[k]? = some old ∧ (buildFrame adr cmd t).set j new =
      soi :: (frameData adr cmd t).set k new ++ hex4 (chk16 (frameData adr cmd t)) ++ [eoi] := by
  obtain ⟨k, rfl⟩ := Nat.exists_eq_add_of_le' hfrom
  have hk : k < (frameData adr cmd t).length := by
    rw [length_frameData]
    omega
  refine ⟨k, ?_, ?_⟩
  · rw [← seg_buildFrame_data, getElem?_seg, if_pos (by omega), Nat.add_comm 1 k, hold]
  · rw [buildFrame, wrapFrame, List.set_append_left _ _ (by simp; omega), List.set_append_left _ _ (by simp; omega)]
    rfl

/-- Replacing a checksum character replaces it in the checksum field. -/
theorem exists_set_checksum {adr cmd : Byte} {t : Bytes} {j : Nat} {old : Byte} (new : Byte)
    (hold : (buildFrame adr cmd t)[j]? = some old) (hfrom : 13 + t.length ≤ j) (hto : j ≤ 16 + t.length) :
    ∃ k, (hex4 (chk16 (frameData adr cmd t)))[k]? = some old ∧ (buildFrame adr cmd t).set j new =
      soi :: frameData adr cmd t ++ (hex4 (chk16 (frameData adr cmd t))).set k new ++ [eoi] := by
  obtain ⟨k, rfl⟩ := Nat.exists_eq_add_of_le hfrom
  refine ⟨k, ?_, ?_⟩
  · rw [← seg_buildFrame_checksum, getElem?_seg, if_pos (by omega), hold]
  · have hdata : (soi :: frameData adr cmd t).length = 13 + t.length := by
      simp
      omega
    rw [buildFrame, wrapFrame, List.set_append_left _ _ (by simp; omega),
      List.set_append_right _ _ (by omega), hdata, Nat.add_sub_cancel_left]

theorem frameDecResult_set_first (adr cmd : Byte) (t : Bytes) {new : Byte} (hne : new ≠ soi) :
    frameDecResult ((buildFrame adr cmd t).set 0 new) = .error (.formatError .noStart) := by
  apply frameDecResult_of_not_started
  rw [List.getElem?_set_self (by rw [length_buildFrame]; omega)]
  exact mt Option.some_inj.mp hne

theorem frameDecResult_set_last (adr cmd : Byte) (t : Bytes) {new : Byte} (hne : new ≠ eoi) :
    frameDecResult ((buildFrame adr cmd t).set (17 + t.length) new) = .error (.formatError .noEnd) := by
  have hstart : ((buildFrame adr cmd t).set (17 + t.length) new)[0]? = some soi := by
    rw [List.getElem?_set_ne (by omega)]
    exact getElem?_buildFrame_zero adr cmd t
  refine frameDecResult_of_not_ended hstart fun ⟨_, hend⟩ => hne ?_
  have hlast : ((buildFrame adr cmd t).set (17 + t.length) new).length - 1 = 17 + t.length := by
    rw [List.length_set, length_buildFrame]
    omega
  rw [hlast, List.getElem?_set_self (by rw [length_buildFrame]; omega)] at hend
  exact Option.some_inj.mp hend

/-- Settles O50: each region of the frame is looked at by its own check, and a checksum character by its value alone. -/
theorem singleByteTamperIsReported : Obligations.SingleByteTamperIsReported := by
  intro adr cid2 t f s s' a u j old new hexec hread hold hne fails
  obtain ⟨ht, rfl⟩ := eq_buildFrame_of_readOut hexec hread
  have hlen : ((buildFrame adr cid2 t).set j new).length = 18 + t.length := by rw [List.length_set, length_buildFrame]
  have hadmits := admits_of_length_eq_frame u.nInMax ht hlen
  have report {e : Err} (h : frameDecResult ((buildFrame adr cid2 t).set j new) = .error e) : fails e.status e.sub :=
    exec_frameDec_of_error a hadmits h
  have hck : val4 (hex4 (chk16 (frameData adr cid2 t))) = some (chk16 (frameData adr cid2 t)) := val4_hex4 _
  refine ⟨?_, ?_, fun hfrom hto => ?_, fun hfrom hto hbad => ?_, fun hfrom hto hhex hval => ?_, fun hfrom hto hval => ?_⟩
  · rintro rfl
    obtain rfl : soi = old := Option.some_inj.mp ((getElem?_buildFrame_zero adr cid2 t).symm.trans hold)
    exact report (frameDecResult_set_first adr cid2 t hne)
  · rintro rfl
    obtain rfl : eoi = old := Option.some_inj.mp ((getElem?_buildFrame_last adr cid2 t).symm.trans hold)
    exact report (frameDecResult_set_last adr cid2 t hne)
  · obtain ⟨k, hk, hset⟩ := exists_set_data new hold hfrom hto
    exact report (hset ▸ frameDecResult_delimited_of_ne hck (chk16_set_ne hk hne))
  · obtain ⟨k, hk, hset⟩ := exists_set_checksum new hold hfrom hto
    have hmem : new ∈ (hex4 (chk16 (frameData adr cid2 t))).set k new :=
      List.mem_set (List.getElem?_eq_some_iff.mp hk).1 new
    exact report (hset ▸ frameDecResult_delimited_of_none _ (by simp) (val4_eq_none_of_not_isHex ⟨new, hmem, hbad⟩))
  · obtain ⟨k, hk, hset⟩ := exists_set_checksum new hold hfrom hto
    obtain ⟨v, hv⟩ := exists_val4_set k hck hhex
    have hmismatch : chk16 (frameData adr cid2 t) ≠ v := by
      rintro rfl
      exact hval ((val4_set_eq_some_iff new hck hk).mp hv)
    exact report (hset ▸ frameDecResult_delimited_of_ne hv hmismatch)
  · obtain ⟨k, hk, hset⟩ := exists_set_checksum new hold hfrom hto
    obtain ⟨b, hb⟩ := ht.exists_hexdec
    have hframe := exec_frameDec_of_ok (s := u) a (admits_of_length_eq_frame u.nInMax ht (length_buildFrame adr cid2 t))
      (frameDecResult_buildFrame adr cid2 ht.length_le hb)
    have htampered : frameDecResult ((buildFrame adr cid2 t).set j new) =
        .ok { out := some b, hdr := some (encodedHdr adr cid2 t.length) } := by
      rw [hset, frameDecResult_delimited_of_eq ((val4_set_eq_some_iff new hck hk).mpr hval),
        dataDecResult_frameData adr cid2 ht.length_le hb]
    exact ⟨(exec_frameDec_of_ok a hadmits htampered).trans hframe.symm, _, _, hframe⟩

end Sys2Proof.Machine
end

section
/-! PROOFS. The two errors of the interface: IllegalOp on every reserved opcode and InputOverflow on an IN that N_IN_MAX does not
admit (60_exceptions.md R203, R204). -/

namespace Sys2Proof.Machine

/-- The reserved opcodes are 0x0 and 0x9 to 0xF, as each of the sixteen values of OP shows (30_encoding.md R62). -/
theorem isReserved_decode_iff (q : Request) : (decode q).isReserved = true ↔ q.op = 0x0#4 ∨ 0x9#4 ≤ q.op := by
  obtain ⟨⟨op⟩, a, inp⟩ := q
  fin_cases op <;> simp [decode, Instr.isReserved]

theorem instrResult_of_isReserved (lim : InLimit) {i : Instr} (h : i.isReserved = true) :
    instrResult lim i = .error .illegalOp := by
  cases i with
  | frameCsum | csumVfy | lenEnc | lenDec | hexEnc | hexDec | frameEnc | frameDec => cases h
  | _ => rfl

/-- A reserved opcode is answered with STATUS 5, SUB 0 before any look at the length of IN (60_exceptions.md R203). -/
theorem exec_of_isReserved {i : Instr} (s : State) (h : i.isReserved = true) :
    exec i s = .next (s.answered (errResponse 5#3 0#4)) :=
  exec_of_error (instrResult_of_isReserved s.nInMax h)

/-- Settles O18: the listed instructions are the reserved ones, and the listed values of OP decode to them. -/
theorem reservedOpcodesAnswerIllegalOp : Obligations.ReservedOpcodesAnswerIllegalOp := by
  refine ⟨fun a inp s i hi => exec_of_isReserved s ?_, fun s q hq hop => ?_⟩
  · simp only [List.mem_cons, List.not_mem_nil, or_false] at hi
    rcases hi with rfl | rfl | rfl | rfl | rfl | rfl | rfl | rfl <;> rfl
  · exact (step_of_inFlight hq).trans (exec_of_isReserved s ((isReserved_decode_iff q).mpr hop))

/-- A non-reserved operation checks the length of IN, whether or not it reads IN, and InputOverflow is no result of its own
(60_exceptions.md R204, R205). -/
theorem exists_instrResult_eq_checkInput {i : Instr} (h : i.isReserved = false) :
    ∃ res, res ≠ .error .inputOverflow ∧ ∀ lim, instrResult lim i = checkInput lim i.input res := by
  cases i with
  | frameCsum a inp => exact ⟨frameCsumResult inp, nofun, fun _ => rfl⟩
  | csumVfy a inp =>
    refine ⟨csumVfyResult a inp, fun hr => ?_, fun _ => rfl⟩
    rcases csumVfyResult_cases a inp with hc | hc <;> cases hc.symm.trans hr
  | lenEnc a inp =>
    refine ⟨lenEncResult a, fun hr => ?_, fun _ => rfl⟩
    rcases lenEncResult_cases a with ⟨w, hc⟩ | hc <;> cases hc.symm.trans hr
  | lenDec a inp =>
    refine ⟨lenDecResult a, fun hr => ?_, fun _ => rfl⟩
    rcases lenDecResult_cases a with ⟨w, hc⟩ | hc <;> cases hc.symm.trans hr
  | hexEnc a inp => exact ⟨hexEncResult inp, nofun, fun _ => rfl⟩
  | hexDec a inp => exact ⟨hexDecResult inp, fun hr => by simpa using hexDecResult_error hr, fun _ => rfl⟩
  | frameEnc adr cid2 inp =>
    refine ⟨frameEncResult adr cid2 inp, fun hr => ?_, fun _ => rfl⟩
    rcases frameEncResult_cases adr cid2 inp with hc | ⟨c, hc⟩ <;> cases hc.symm.trans hr
  | frameDec a inp => exact ⟨frameDecResult inp, fun hr => by simpa using frameDecResult_error hr, fun _ => rfl⟩
  | _ => cases h

/-- A non-reserved operation answers STATUS 6, SUB 0 for an IN that is not admitted (60_exceptions.md R204). -/
theorem exec_of_not_admits {i : Instr} {s : State} (hop : i.isReserved = false)
    (hin : s.nInMax.admits i.input.length = false) : exec i s = .next (s.answered (errResponse 6#3 0#4)) := by
  obtain ⟨res, -, hres⟩ := exists_instrResult_eq_checkInput hop
  exact exec_of_error ((hres s.nInMax).trans (checkInput_of_not_admits hin res))

/-- No instruction reports InputOverflow for an IN that is admitted. -/
theorem instrResult_ne_inputOverflow {lim : InLimit} {i : Instr} (hin : lim.admits i.input.length = true) :
    instrResult lim i ≠ .error .inputOverflow := by
  cases hop : i.isReserved with
  | true => simp [instrResult_of_isReserved lim hop]
  | false =>
    obtain ⟨res, hne, hres⟩ := exists_instrResult_eq_checkInput hop
    rwa [hres lim, checkInput_of_admits hin]

/-- STATUS 6 is InputOverflow's alone (30_encoding.md R80). -/
theorem Err.eq_inputOverflow_of_status {e : Err} (h : e.status = 6#3) : e = .inputOverflow := by
  cases e with
  | inputOverflow => rfl
  | _ => simp [Err.status] at h

/-- STATUS 6 can be read only after InputOverflow. -/
theorem readStatus_ne_six {i : Instr} {s t : State} (hin : s.nInMax.admits i.input.length = true)
    (hexec : exec i s = .next t) : t.readStatus ≠ .ok 6#3 := by
  cases hres : instrResult s.nInMax i with
  | ok p =>
    cases hexec.symm.trans (exec_of_ok hres)
    simp [State.readStatus, okResponse]
  | error e =>
    cases hexec.symm.trans (exec_of_error hres)
    intro hread
    have hstatus : e.status = 6#3 := by simpa [State.readStatus, errResponse] using hread
    exact instrResult_ne_inputOverflow hin (Err.eq_inputOverflow_of_status hstatus ▸ hres)

/-- Settles O19: an IN beyond the limit is not admitted; one within it, or in an unbounded block, is. -/
theorem oversizeInputAnswersInputOverflow : Obligations.OversizeInputAnswersInputOverflow := by
  refine ⟨fun i s extra hlim hop hlong => exec_of_not_admits hop ?_, fun i s t hlim => readStatus_ne_six ?_⟩
  · rw [hlim, Bool.eq_false_iff, ne_eq, InLimit.admits_bytes_iff]
    omega
  · rcases hlim with hlim | ⟨extra, hlim, hle⟩
    · rw [hlim, InLimit.admits_unbounded]
    · rw [hlim, InLimit.admits_bytes_iff]
      exact hle

end Sys2Proof.Machine
end

section
/-! PROOFS. Every request properly issued is answered (70_reset_and_hazards.md R237). -/

namespace Sys2Proof.Machine

/-- The answer to a request alone is the response its instruction leaves on a block that has had no other. -/
theorem answer_eq_response {lim : InLimit} {q : Request} {t : State} (h : exec (decode q) ⟨lim, some q, none⟩ = .next t) :
    answer lim q = t.response := by
  simp only [answer, h]

/-- Settles O9: the one response of `exec_answered` serves the transaction and the request alone, as both run the same
instruction with the same N_IN_MAX. -/
theorem everyIssuedRequestIsAnswered : Obligations.EveryIssuedRequestIsAnswered := by
  intro s q hidle
  obtain ⟨p, hp⟩ := exec_answered (decode q) s
  exact ⟨p, State.transact_eq_answered hidle (hp (s.present q) (State.present_nInMax s q)),
    answer_eq_response (hp ⟨s.nInMax, some q, none⟩ rfl)⟩

end Sys2Proof.Machine
end

section
/-! PROOFS. Every step and every move of the host keeps states legal (10_state.md R22 to R24, 42_frame.md R172,
92_eei_decisions.md D22). -/

namespace Sys2Proof.Machine

/-- An error response is legal: its pair is the table's and it has no other field. -/
theorem errResponse_legal (lim : InLimit) (e : Err) : (errResponse e.status e.sub).legal lim := by
  refine ⟨.inr ⟨e, e.mem_all, rfl, rfl⟩, ?_, nofun, nofun⟩
  rw [Response.whole, if_neg (show (errResponse e.status e.sub).status ≠ 0#3 from e.status_ne_ok)]
  exact ⟨rfl, rfl, rfl⟩

/-- A success response with no field but R is legal. -/
theorem okResponse_legal_of_no_out (lim : InLimit) (r : Option Word) : (okResponse r none none).legal lim := by
  refine ⟨.inl ⟨rfl, rfl⟩, ?_, nofun, nofun⟩
  rw [Response.whole, if_pos (show (okResponse r none none).status = 0#3 from rfl)]
  exact ⟨fun _ => ⟨rfl, rfl⟩, nofun⟩

/-- A success response with OUT is legal when OUT keeps its bound and a header beside it agrees with it. -/
theorem okResponse_legal_of_out {lim : InLimit} {b : Bytes} {hdr : Option Hdr}
    (hfits : ∀ extra, lim = .bytes extra → b.length ≤ 2 * (4113 + extra))
    (hagrees : ∀ h, hdr = some h → lchksum h.lenf = lchk (lenid h.lenf) ∧ 2 * b.length = (lenid h.lenf).toNat) :
    (okResponse none (some b) hdr).legal lim := by
  refine ⟨.inl ⟨rfl, rfl⟩, ?_, ?_, ?_⟩
  · rw [Response.whole, if_pos (show (okResponse none (some b) hdr).status = 0#3 from rfl)]
    exact ⟨nofun, fun _ => rfl⟩
  · rintro h _ hh ⟨⟩
    exact hagrees h hh
  · rintro _ extra ⟨⟩ hlim
    exact hfits extra hlim

/-- An operation that succeeds has an IN within N_IN_MAX (60_exceptions.md R204). -/
theorem length_le_of_checkInput_ok {lim : InLimit} {inp : Bytes} {res : Except Err Payload} {p : Payload} {extra : Nat}
    (h : checkInput lim inp res = .ok p) (hlim : lim = .bytes extra) : inp.length ≤ 4113 + extra := by
  rw [← InLimit.admits_bytes_iff, ← hlim]
  by_contra hin
  rw [Bool.not_eq_true] at hin
  cases h.symm.trans (checkInput_of_not_admits hin res)

/-- A decoded text has half the bytes of the text. -/
theorem length_of_hexdec {t b : Bytes} (h : hexdec t = .ok b) : 2 * b.length = t.length :=
  length_hexPairs ((hexdec_eq_ok_iff t b).mp h)

/-- An operation that succeeds delivers a legal response. -/
theorem okResponse_legal_of_instrResult {lim : InLimit} {i : Instr} {p : Payload} (h : instrResult lim i = .ok p) :
    (okResponse p.r p.out p.hdr).legal lim := by
  cases i with
  | frameCsum a inp => cases checkInput_ok h; exact okResponse_legal_of_no_out lim _
  | csumVfy a inp =>
    rcases csumVfyResult_cases a inp with hc | hc <;> cases hc.symm.trans (checkInput_ok h)
    exact okResponse_legal_of_no_out lim _
  | lenEnc a inp =>
    rcases lenEncResult_cases a with ⟨w, hc⟩ | hc <;> cases hc.symm.trans (checkInput_ok h)
    exact okResponse_legal_of_no_out lim _
  | lenDec a inp =>
    rcases lenDecResult_cases a with ⟨w, hc⟩ | hc <;> cases hc.symm.trans (checkInput_ok h)
    exact okResponse_legal_of_no_out lim _
  | hexEnc a inp =>
    cases checkInput_ok h
    refine okResponse_legal_of_out (fun extra hlim => ?_) nofun
    have hin := length_le_of_checkInput_ok h hlim
    rw [length_hexenc]
    omega
  | hexDec a inp =>
    obtain ⟨b, hb, rfl⟩ := hexDecResult_ok (checkInput_ok h)
    refine okResponse_legal_of_out (fun extra hlim => ?_) nofun
    have hin := length_le_of_checkInput_ok h hlim
    have hlen := length_of_hexdec hb
    omega
  | frameEnc adr cid2 inp =>
    obtain ⟨htext, rfl⟩ := frameEncResult_ok (checkInput_ok h)
    refine okResponse_legal_of_out (fun extra _ => ?_) nofun
    have hle := htext.length_le
    rw [length_buildFrame]
    omega
  | frameDec a inp =>
    obtain ⟨d, ck, rfl, -, -, hdata, -, -⟩ := frameDecResult_ok (checkInput_ok h)
    obtain ⟨b, hdr, rfl, h12, -, hvalid, hcount, hb⟩ := dataDecResult_ok hdata
    have hlen : 2 * b.length = d.length - 12 := (length_of_hexdec hb).trans (length_seg_of_le (by omega))
    refine okResponse_legal_of_out (fun extra hlim => ?_) ?_
    · have hin := length_le_of_checkInput_ok h hlim
      simp only [List.length_append, List.length_cons] at hin
      omega
    · rintro _ ⟨⟩
      exact ⟨hvalid, hlen.trans hcount⟩
  | _ => cases h

/-- An answered state is legal when its response is. -/
theorem State.legal_answered {s : State} {p : Response} (h : p.legal s.nInMax) : (s.answered p).Legal := by
  refine ⟨?_, nofun⟩
  rintro _ ⟨⟩
  exact h

/-- A state without a response is legal, whether or not a request is in flight. -/
theorem State.legal_of_no_response {s : State} (h : s.response = none) : s.Legal :=
  ⟨fun _ hp => (nomatch h.symm.trans hp), fun _ => h⟩

/-- Every instruction ends in a legal state, from any state. -/
theorem exec_legal {i : Instr} {s t : State} (h : exec i s = .next t) : t.Legal := by
  cases hres : instrResult s.nInMax i with
  | ok p =>
    cases h.symm.trans (exec_of_ok hres)
    exact State.legal_answered (okResponse_legal_of_instrResult hres)
  | error e =>
    cases h.symm.trans (exec_of_error hres)
    exact State.legal_answered (errResponse_legal s.nInMax e)

/-- Settles O4: an idle step keeps the state, and any other step is an instruction. -/
theorem everyStepKeepsStateLegal : Obligations.EveryStepKeepsStateLegal := by
  intro s t hs hstep
  cases hq : s.inFlight with
  | none =>
    cases hstep.symm.trans (step_idle hq)
    exact hs
  | some q => exact exec_legal ((step_of_inFlight hq).symm.trans hstep)

/-- Settles O3: at reset there is no response. -/
theorem resetStateIsLegal : Obligations.ResetStateIsLegal :=
  State.legal_of_no_response State.reset_response

/-- While a request is in flight the host's `issue` is a fault (70_reset_and_hazards.md R233). -/
theorem State.issue_of_busy {s : State} {q : Request} (h : s.inFlight = some q) (q' : Request) :
    s.issue q' = .fault .hostHasNoMove := by
  simp only [State.issue, h]

theorem State.transact_of_busy {s : State} {q : Request} (h : s.inFlight = some q) (q' : Request) :
    s.transact q' = .fault .hostHasNoMove := by
  simp only [State.transact, State.issue_of_busy h]

/-- A transaction of an idle block is the step after the request is presented. -/
theorem State.transact_of_idle {s : State} (h : s.inFlight = none) (q : Request) : s.transact q = step (s.present q) := by
  simp only [State.transact, State.issue_of_idle h]

/-- Settles O8: the fault of `issue` is that of the transaction. -/
theorem hostHasNoMoveWhileRequestInFlight : Obligations.HostHasNoMoveWhileRequestInFlight := fun _ _ q' hq =>
  ⟨State.issue_of_busy hq q', State.transact_of_busy hq q'⟩

/-- Settles O5: presenting a request and resetting leave no response, and a transaction ends in a step. -/
theorem hostMovesKeepStateLegal : Obligations.HostMovesKeepStateLegal := by
  intro s t q _
  have hpresent : (s.present q).Legal := State.legal_of_no_response (State.present_response s q)
  refine ⟨fun hissue => ?_, fun htransact => ?_, State.legal_of_no_response (State.assertReset_response s)⟩
  · cases hq : s.inFlight with
    | none =>
      cases hissue.symm.trans (State.issue_of_idle hq q)
      exact hpresent
    | some q' => cases hissue.symm.trans (State.issue_of_busy hq q)
  · cases hq : s.inFlight with
    | none => exact everyStepKeepsStateLegal _ t hpresent ((State.transact_of_idle hq q).symm.trans htransact)
    | some q' => cases htransact.symm.trans (State.transact_of_busy hq q)

end Sys2Proof.Machine
end

section
/-! PROOFS. Decoding and encoding are inverse on every instruction and every request (30_encoding.md R60 to R63). -/

namespace Sys2Proof.Machine

open Laws

/-- The request of an instruction decodes to it: the family `DecodeEncode`, gathered. -/
theorem decode_encode (i : Instr) : decode (encode i) = i := by
  cases i with
  | frameCsum a inp => exact DecodeEncode.frameCsum a inp
  | csumVfy a inp => exact DecodeEncode.csumVfy a inp
  | lenEnc a inp => exact DecodeEncode.lenEnc a inp
  | lenDec a inp => exact DecodeEncode.lenDec a inp
  | hexEnc a inp => exact DecodeEncode.hexEnc a inp
  | hexDec a inp => exact DecodeEncode.hexDec a inp
  | frameEnc adr cid2 inp => exact DecodeEncode.frameEnc adr cid2 inp
  | frameDec a inp => exact DecodeEncode.frameDec a inp
  | reserved0 a inp => exact DecodeEncode.reserved0 a inp
  | reserved9 a inp => exact DecodeEncode.reserved9 a inp
  | reservedA a inp => exact DecodeEncode.reservedA a inp
  | reservedB a inp => exact DecodeEncode.reservedB a inp
  | reservedC a inp => exact DecodeEncode.reservedC a inp
  | reservedD a inp => exact DecodeEncode.reservedD a inp
  | reservedE a inp => exact DecodeEncode.reservedE a inp
  | reservedF a inp => exact DecodeEncode.reservedF a inp

/-- A is its two bytes: each of its bits stands in one of them (30_encoding.md R63). -/
theorem join_bytes_extract (a : Word) :
    ((a.extractLsb' 8 8).setWidth 16 <<< 8) ||| (a.extractLsb' 0 8).setWidth 16 = a := by
  ext k hk
  interval_cases k <;> simp [BitVec.getLsbD_eq_getElem]

/-- Encoding puts back OP and the operands: FRAME_ENC's A from its two bytes, every other operand as it is (OP 0x7 is
the eighth of the sixteen cases). -/
theorem encode_decode (q : Request) : encode (decode q) = q := by
  have hsplit (a : Word) (inp : Bytes) : encode (decode ⟨0x7#4, a, inp⟩) = ⟨0x7#4, a, inp⟩ :=
    congrArg (Request.mk 0x7#4 · inp) (join_bytes_extract a)
  obtain ⟨⟨op⟩, a, inp⟩ := q
  fin_cases op
  on_goal 8 => exact hsplit a inp
  all_goals rfl

/-- Settles O13: both directions. -/
theorem decodeAndEncodeAreInverse : Obligations.DecodeAndEncodeAreInverse :=
  ⟨decode_encode, encode_decode⟩

end Sys2Proof.Machine
end

section
/-! PROOFS. The step and the request port: reset and reissue, table words, programs of requests (00_scope.md R4, 20_memory.md R50,
70_reset_and_hazards.md R231). -/

namespace Sys2Proof.Machine

/-- Settles O7: it is `step_idle`. -/
theorem idleBlockStaysAsItIs : Obligations.IdleBlockStaysAsItIs := fun _ => step_idle

/-- Settles O2: the step and the transaction after the reset run the same instruction with the same N_IN_MAX, which reset keeps
(70_reset_and_hazards.md R232). -/
theorem reissuedRequestAfterResetGetsItsAnswer : Obligations.ReissuedRequestAfterResetGetsItsAnswer := by
  intro s q hq
  obtain ⟨p, hp⟩ := step_answered s q
  refine ⟨step_idle (State.assertReset_inFlight s), State.assertReset_response s, p, hp s rfl hq, ?_⟩
  rw [State.transact_of_idle (State.assertReset_inFlight s)]
  exact hp (s.assertReset.present q) (State.assertReset_nInMax s) (State.present_inFlight s.assertReset q)

/-- A word of the table that decodes is presented as the request it decodes from (assumption logs 6 and 7). -/
theorem exists_present_of_decodeTableWord {nbits w : Nat} {i : Instr} (h : decodeTableWord nbits w = some i) :
    ∃ q, decode q = i ∧ ∀ s : State, s.withFetchWord nbits w = s.present q := by
  unfold decodeTableWord at h
  cases hq : requestOfSelect nbits w with
  | ok q =>
    rw [hq] at h
    exact ⟨q, Option.some_inj.mp h, fun s => by simp only [State.withFetchWord, hq]⟩
  | error e =>
    rw [hq] at h
    cases h

/-- Settles O6: a request in flight is run, however it came to be in flight. -/
theorem stepRunsDecodedInstruction : Obligations.StepRunsDecodedInstruction := by
  refine ⟨fun s q => step_of_inFlight, fun s nbits w i hi => ?_⟩
  obtain ⟨q, rfl, hpresent⟩ := exists_present_of_decodeTableWord hi
  rw [hpresent]
  exact step_of_inFlight (State.present_inFlight s q)

/-- Serving a program whose first request is answered with `p` serves the rest from the answered state. -/
theorem serve_cons {s u : State} {q : Request} {qs : List Request} {p : Response} {ps : List Response}
    (hfirst : s.transact q = .next (s.answered p)) (hrest : serve qs (s.answered p) = .next (ps, u)) :
    serve (q :: qs) s = .next (p :: ps, u) := by
  simp only [serve, hfirst, State.answered_response, hrest]

/-- Settles O11, by induction on the program: an answered block is idle and has the same N_IN_MAX. -/
theorem programResponsesAreThoseOfEachRequestAlone : Obligations.ProgramResponsesAreThoseOfEachRequestAlone := by
  intro qs
  induction qs with
  | nil => exact fun s hidle => ⟨[], s, rfl, rfl, hidle, rfl⟩
  | cons q qs ih =>
    intro s hidle
    obtain ⟨p, hfirst, halone⟩ := everyIssuedRequestIsAnswered s q hidle
    obtain ⟨ps, u, hrest, hps, hu, hlim⟩ := ih (s.answered p) (State.answered_inFlight s p)
    refine ⟨p :: ps, u, serve_cons hfirst hrest, ?_, hu, hlim⟩
    rw [List.map_cons, List.map_cons, halone, hps, State.answered_nInMax]

end Sys2Proof.Machine
end

section
/-! PROOFS. The errors an operation reports, their numbers, and what the host reads after one (30_encoding.md R80, R81,
60_exceptions.md R201). -/

namespace Sys2Proof.Machine

/-- Reading back a pair gives an error only where it is neither success nor an error's (93_implementation_defined.md I2). -/
theorem ofCodes_eq_unlisted_iff (status : BitVec 3) (sub : BitVec 4) :
    Err.ofCodes status sub = .error (.unlistedStatus status sub) ↔
      ¬ (status = 0#3 ∧ sub = 0#4) ∧ ∀ e ∈ Err.all, ¬ (e.status = status ∧ e.sub = sub) := by
  unfold Err.ofCodes
  split
  case isTrue hok => exact iff_of_false nofun fun h => h.1 hok
  case isFalse hok =>
    cases hfind : Err.all.find? fun e => decide (e.status = status ∧ e.sub = sub) with
    | none =>
      rw [List.find?_eq_none] at hfind
      exact iff_of_true rfl ⟨hok, fun e he => by simpa using hfind e he⟩
    | some e =>
      have hcodes : e.status = status ∧ e.sub = sub := by simpa using List.find?_some hfind
      exact iff_of_false nofun fun h => h.2 e e.mem_all hcodes

/-- Settles O17: the sixteen rows of the table are computed; the refused pairs are those of no row. -/
theorem statusCodesAreAsTabled : Obligations.StatusCodesAreAsTabled :=
  ⟨by decide, fun status sub => (ofCodes_eq_unlisted_iff status sub).symm⟩

/-- An instruction leaves a success, or one of its errors with no other field. -/
theorem exec_cases {i : Instr} {s t : State} (h : exec i s = .next t) :
    (∃ p, t = s.answered p ∧ p.status = 0#3 ∧ p.sub = 0#4) ∨
      ∃ e ∈ instrErrors i, t = s.answered (errResponse e.status e.sub) := by
  obtain ⟨p, hp, hends⟩ := everyOperationEndsInOneOfTwoWays i s
  cases h.symm.trans hp
  rcases hends with ⟨hstatus, hsub, -⟩ | ⟨e, he, rfl⟩
  · exact .inl ⟨p, rfl, hstatus, hsub⟩
  · exact .inr ⟨e, he, rfl⟩

theorem State.readStatus_answered (s : State) (p : Response) : (s.answered p).readStatus = .ok p.status := rfl

theorem State.readSub_answered (s : State) (p : Response) : (s.answered p).readSub = .ok p.sub := rfl

/-- Settles O21: the host reads STATUS and SUB of the response that `exec_cases` gives. -/
theorem operationsReportOnlyTheirTabledErrors : Obligations.OperationsReportOnlyTheirTabledErrors := by
  intro i s t h
  rcases exec_cases h with ⟨p, rfl, hstatus, hsub⟩ | ⟨e, he, rfl⟩
  · rw [State.readStatus_answered, State.readSub_answered, hstatus, hsub]
    exact .inl ⟨rfl, rfl⟩
  · exact .inr ⟨e, he, rfl, rfl⟩

/-- Settles O23: a STATUS other than OK is an error's, whose response has no other field. -/
theorem errorResponseHasNoFieldToRead : Obligations.ErrorResponseHasNoFieldToRead := by
  intro i s t h hstatus
  rcases exec_cases h with ⟨p, rfl, hok, -⟩ | ⟨e, -, rfl⟩
  · exact absurd (congrArg Except.ok hok) hstatus
  · exact ⟨rfl, rfl, rfl⟩

/-- Every error is reported by some instruction: the operands are the shortest that reach its check. -/
theorem exists_instrResult_error (e : Err) : ∃ lim i, instrResult lim i = .error e := by
  match e with
  | .formatError .noStart => exact ⟨.unbounded, .frameDec 0 [], rfl⟩
  | .formatError .noEnd => exact ⟨.unbounded, .frameDec 0 [soi], rfl⟩
  | .formatError .badHexChecksum => exact ⟨.unbounded, .frameDec 0 [soi, 0, 0, 0, 0, eoi], rfl⟩
  | .formatError .badHexHeader => exact ⟨.unbounded, .frameDec 0 (wrapFrame (List.replicate 12 0)), rfl⟩
  | .formatError .lengthMismatch =>
    exact ⟨.unbounded, .frameDec 0 (wrapFrame (headerText ⟨0, 0, 0, 0, lenfield 1⟩)), rfl⟩
  | .formatError .oddLength => exact ⟨.unbounded, .hexDec 0 [0], rfl⟩
  | .formatError .badHex => exact ⟨.unbounded, .hexDec 0 [0, 0], rfl⟩
  | .checksumMismatch .frame => exact ⟨.unbounded, .csumVfy 1 [], rfl⟩
  | .checksumMismatch .length => exact ⟨.unbounded, .lenDec 1 [], rfl⟩
  | .incompleteFrame .noChecksum => exact ⟨.unbounded, .frameDec 0 [soi, eoi], rfl⟩
  | .incompleteFrame .shortHeader => exact ⟨.unbounded, .frameDec 0 (wrapFrame []), rfl⟩
  | .encodingError .tooLong => exact ⟨.unbounded, .lenEnc 0x1000#16 [], rfl⟩
  | .encodingError .badInfoChar => exact ⟨.unbounded, .frameEnc 0 0 [0], rfl⟩
  | .encodingError .oddInfo => exact ⟨.unbounded, .frameEnc 0 0 [0x30#8], rfl⟩
  | .illegalOp => exact ⟨.unbounded, .reserved0 0 [], rfl⟩
  | .inputOverflow =>
    refine ⟨.bytes 0, .hexEnc 0 (List.replicate 4114 0), checkInput_of_not_admits ?_ _⟩
    rw [List.length_replicate]
    rfl

/-- The numbers of the table are those of success and of the errors (30_encoding.md R81). -/
theorem mem_statusTable_iff (status : BitVec 3) (sub : BitVec 4) :
    (status.toNat, sub.toNat) ∈ (0, 0) :: Err.all.map (fun e => (e.status.toNat, e.sub.toNat)) ↔
      (status = 0#3 ∧ sub = 0#4) ∨ ∃ e : Err, e.status = status ∧ e.sub = sub := by
  simp [BitVec.toNat_eq, Err.mem_all]

/-- Settles O22: what can be read is success or an error, and each of them is reached. -/
theorem producedStatusPairsAreExactlyTheTable : Obligations.ProducedStatusPairsAreExactlyTheTable := by
  intro status sub
  rw [← statusCodesAreAsTabled.1, mem_statusTable_iff]
  constructor
  · rintro ⟨i, s, t, hexec, hstatus, hsub⟩
    rcases exec_cases hexec with ⟨p, rfl, hok, hzero⟩ | ⟨e, -, rfl⟩
    · cases hstatus
      cases hsub
      exact .inl ⟨hok, hzero⟩
    · cases hstatus
      cases hsub
      exact .inr ⟨e, rfl, rfl⟩
  · rintro (⟨rfl, rfl⟩ | ⟨e, rfl, rfl⟩)
    · exact ⟨.frameCsum 0 [], State.reset, _, rfl, rfl, rfl⟩
    · obtain ⟨lim, i, hres⟩ := exists_instrResult_error e
      exact ⟨i, ⟨lim, none, none⟩, _, exec_of_error hres, rfl, rfl⟩

/-- The length check is all an operation sees of an IN it does not read (30_encoding.md R64). -/
theorem checkInput_congr {lim : InLimit} {inp inp' : Bytes} (h : lim.admits inp.length = lim.admits inp'.length)
    (res : Except Err Payload) : checkInput lim inp res = checkInput lim inp' res := by
  rw [checkInput, checkInput, h]

/-- Settles O24: an unread A stands in no result, and an unread IN only in the length check. -/
theorem unreadOperandsAreIgnored : Obligations.UnreadOperandsAreIgnored := by
  intro a a' inp inp' s
  refine ⟨rfl, rfl, rfl, rfl, fun hin => ⟨?_, ?_⟩⟩
  · exact congrArg s.deliver (checkInput_congr hin (lenEncResult a))
  · exact congrArg s.deliver (checkInput_congr hin (lenDecResult a))

end Sys2Proof.Machine
end

section
/-! PROOFS. The byte order of a four-digit field, the assembler's requests, and the negation (20_memory.md R44, 30_encoding.md R65,
40_checksum.md R101). -/

namespace Sys2Proof.Machine

/-- A two-digit field with a value is two digits. -/
theorem exists_hexval_of_val2 {c d b : Byte} (h : val2 [c, d] = some b) :
    ∃ x y, hexval c = some x ∧ hexval d = some y ∧ b = join2 x y := by
  obtain ⟨-, hhex⟩ := (val2_isSome_iff [c, d]).mp (Option.isSome_of_eq_some h)
  obtain ⟨x, hx⟩ := exists_hexval (List.all_eq_true.mp hhex c (by simp))
  obtain ⟨y, hy⟩ := exists_hexval (List.all_eq_true.mp hhex d (by simp))
  exact ⟨x, y, hx, hy, Option.some_inj.mp (h.symm.trans (val2_of_hexval hx hy))⟩

/-- Four digits are two pairs: each bit of the value stands in one of them. -/
theorem join4_eq_join2 (x y z w : Nibble) :
    join4 x y z w = ((join2 x y).setWidth 16 <<< 8) ||| (join2 z w).setWidth 16 := by
  ext k hk
  interval_cases k <;> simp [join4, join2]

/-- Settles O15: the two pairs' digits are the field's. -/
theorem lengthFieldIsTwoBytesHighFirst : Obligations.LengthFieldIsTwoBytesHighFirst := by
  intro c d e f b0 b1 h0 h1
  obtain ⟨x, y, hx, hy, rfl⟩ := exists_hexval_of_val2 h0
  obtain ⟨z, w, hz, hw, rfl⟩ := exists_hexval_of_val2 h1
  rw [val4_of_hexval hx hy hz hw, join4_eq_join2]

theorem assemble_eq_some_iff (l : AsmLine) (q : Request) : assemble l = some q ↔ l.wellFormed = true ∧
    ⟨mnemonicOp l.mnemonic, BitVec.ofNat 16 (l.a.getD 0), (l.inp.map asmBytes).getD []⟩ = q := by
  rw [assemble, Option.ite_none_right_eq_some, Option.some_inj]

/-- A line is well formed part by part. -/
theorem AsmLine.wellFormed_iff_parts (l : AsmLine) : l.wellFormed = true ↔
    (∀ v, l.a = some v → v < 0x10000) ∧ ∀ seq, l.inp = some seq → seq.wellFormed = true := by
  obtain ⟨m, a, inp⟩ := l
  cases a <;> cases inp <;> simp [AsmLine.wellFormed]

theorem AsmSeq.wellFormed_listed (vs : List Nat) : (AsmSeq.listed vs).wellFormed = true ↔ ∀ v ∈ vs, v < 0x100 := by
  simp [AsmSeq.wellFormed]

theorem AsmSeq.wellFormed_quoted (cs : List Char) :
    (AsmSeq.quoted cs).wellFormed = true ↔ ∀ c ∈ cs, c.toNat < 0x80 := by
  simp [AsmSeq.wellFormed]

/-- The line's values fit: its A has 16 bits, and its sequence holds bytes or ASCII characters (30_encoding.md R65). -/
theorem AsmLine.wellFormed_iff (l : AsmLine) : l.wellFormed = true ↔
    (∀ v, l.a = some v → v < 0x10000) ∧ (∀ vs, l.inp = some (.listed vs) → ∀ v ∈ vs, v < 0x100) ∧
      ∀ cs, l.inp = some (.quoted cs) → ∀ c ∈ cs, c.toNat < 0x80 := by
  rw [AsmLine.wellFormed_iff_parts]
  refine and_congr_right fun _ => ⟨fun h => ⟨fun vs hvs => ?_, fun cs hcs => ?_⟩, fun ⟨hlisted, hquoted⟩ seq hseq => ?_⟩
  · exact (AsmSeq.wellFormed_listed vs).mp (h _ hvs)
  · exact (AsmSeq.wellFormed_quoted cs).mp (h _ hcs)
  · cases seq with
    | listed vs => exact (AsmSeq.wellFormed_listed vs).mpr (hlisted vs hseq)
    | quoted cs => exact (AsmSeq.wellFormed_quoted cs).mpr (hquoted cs hseq)

/-- Numbers that fit a byte are the bytes' values. -/
theorem map_toNat_ofNat {α : Type} (f : α → Nat) {xs : List α} (h : ∀ x ∈ xs, f x < 0x100) :
    (xs.map fun x => BitVec.ofNat 8 (f x)).map BitVec.toNat = xs.map f := by
  rw [List.map_map]
  exact List.map_congr_left fun x hx => Nat.mod_eq_of_lt (h x hx)

/-- The bytes of a listed sequence have the written values. -/
theorem toNat_asmBytes_listed {vs : List Nat} (h : ∀ v ∈ vs, v < 0x100) :
    (asmBytes (.listed vs)).map BitVec.toNat = vs :=
  (map_toNat_ofNat id h).trans (List.map_id vs)

/-- The bytes of a quoted sequence are the codes of its characters. -/
theorem toNat_asmBytes_quoted {cs : List Char} (h : ∀ c ∈ cs, c.toNat < 0x80) :
    (asmBytes (.quoted cs)).map BitVec.toNat = cs.map Char.toNat :=
  map_toNat_ofNat Char.toNat fun c hc => (h c hc).trans (by decide)

/-- Settles O16: a well-formed line is a request, and its values fit the widths they are cut to. -/
theorem assemblerWritesExactlyTheFittingRequests : Obligations.AssemblerWritesExactlyTheFittingRequests := by
  intro l
  refine ⟨?_, fun q hq => ?_⟩
  · rw [← AsmLine.wellFormed_iff]
    simp only [assemble_eq_some_iff, exists_and_left, exists_eq', and_true]
  · obtain ⟨hwf, rfl⟩ := (assemble_eq_some_iff l q).mp hq
    obtain ⟨ha, hlisted, hquoted⟩ := (AsmLine.wellFormed_iff l).mp hwf
    refine ⟨?_, ?_, fun hnone => ?_, fun vs hvs => ?_, fun cs hcs => ?_⟩
    · cases l.mnemonic <;> rfl
    · cases hv : l.a with
      | none => rfl
      | some v => exact Nat.mod_eq_of_lt (ha v hv)
    · rw [hnone]
      rfl
    · rw [hvs]
      exact toNat_asmBytes_listed (hlisted vs hvs)
    · rw [hcs]
      exact toNat_asmBytes_quoted (hquoted cs hcs)

/-- The source's formula is the two's complement (40_checksum.md R101). -/
theorem neg16_eq_neg (x : Word) : neg16 x = -x := by
  apply BitVec.eq_of_toNat_eq
  rw [toNat_neg16, BitVec.toNat_neg]

/-- Settles O26: the three clauses from the value of `neg16`; only for 0 does the reduction mod 0x10000 do anything. -/
theorem negationIsTwosComplement : Obligations.NegationIsTwosComplement := by
  refine fun x => ⟨neg16_eq_neg x, ?_, fun hx => ?_⟩
  · rintro rfl
    rfl
  · have hpos : x.toNat ≠ 0 := fun h => hx (BitVec.eq_of_toNat_eq h)
    rw [toNat_neg16]
    exact Nat.mod_eq_of_lt (by omega)

end Sys2Proof.Machine
end

section
/-! PROOFS. The unit pairs as two transactions (40_checksum.md R110 to R113, 95_test_vectors.md S2 and S3). -/

namespace Sys2Proof.Machine

/-- Settles O33: FRAME_CSUM answers the checksum, which CSUM_VFY accepts with the same IN. -/
theorem csumVfyAcceptsWhatFrameCsumAnswered : Obligations.CsumVfyAcceptsWhatFrameCsumAnswered := by
  intro a inp s hidle hin
  have hcsum : instrResult s.nInMax (.frameCsum a inp) = .ok { r := some (chk16 inp) } :=
    (checkInput_of_admits hin _).trans (frameCsumResult_eq inp)
  have hvfy : instrResult s.nInMax (.csumVfy (chk16 inp) inp) = .ok {} :=
    (checkInput_of_admits hin _).trans (csumVfyResult_chk16 inp)
  exact ⟨_, chk16 inp, _, State.transact_of_ok hidle hcsum, rfl, State.transact_of_ok rfl hvfy, rfl⟩

/-- LEN_DEC reads the length back out of its length field (40_checksum.md R108). -/
theorem lenDecResult_lenfield (l : Length) : lenDecResult (lenfield l) = .ok { r := some (l.setWidth 16) } := by
  have hvalid : lchksum (lenfield l) = lchk (lenid (lenfield l)) := by rw [lchksum_lenfield, lenid_lenfield]
  rw [lenDecResult_of_eq hvalid, ← setWidth_lenid, lenid_lenfield]

/-- A length up to 0x0FFF is its low 12 bits. -/
theorem setWidth_lenid_of_le {l : Word} (h : l.toNat ≤ 0x0FFF) : (lenid l).setWidth 16 = l := by
  apply BitVec.eq_of_toNat_eq
  rw [BitVec.toNat_setWidth, toNat_lenid]
  omega

/-- Settles O36: LEN_ENC answers the length field of the low 12 bits, which LEN_DEC accepts and reads back. -/
theorem lenDecRecoversWhatLenEncEncoded : Obligations.LenDecRecoversWhatLenEncEncoded := by
  intro l s hidle hle
  have hin : s.nInMax.admits ([] : Bytes).length = true := InLimit.admits_of_le s.nInMax (Nat.zero_le _)
  have henc : instrResult s.nInMax (.lenEnc l []) = .ok { r := some (lenfield (lenid l)) } :=
    (checkInput_of_admits hin _).trans (lenEncResult_of_le hle)
  have hdec : instrResult s.nInMax (.lenDec (lenfield (lenid l)) []) = .ok { r := some l } := by
    have hres := lenDecResult_lenfield (lenid l)
    rw [setWidth_lenid_of_le hle] at hres
    exact (checkInput_of_admits hin _).trans hres
  exact ⟨_, lenfield (lenid l), _, State.transact_of_ok hidle henc, rfl, State.transact_of_ok rfl hdec, rfl, rfl⟩

end Sys2Proof.Machine
end

section
/-! PROOFS. Frame lengths and the listed commands (30_encoding.md R77 to R79). -/

namespace Sys2Proof.Machine

/-- FRAME_ENC answers the frame of an info text in any state. -/
theorem exec_frameEnc_of_infoText (adr cid2 : Byte) {t : Bytes} (s : State) (ht : InfoText t) :
    exec (.frameEnc adr cid2 t) s = .next (s.answered (okResponse none (some (buildFrame adr cid2 t)) none)) := by
  have hin : s.nInMax.admits t.length = true := InLimit.admits_of_le _ (ht.length_le.trans (by decide))
  have hres : instrResult s.nInMax (.frameEnc adr cid2 t) = .ok { out := some (buildFrame adr cid2 t) } :=
    (checkInput_of_admits hin _).trans (frameEncResult_of_infoText adr cid2 ht)
  exact exec_of_ok hres

/-- Zeros of an even count up to 4094 are an info text. -/
theorem infoText_replicate {n : Nat} (hle : n ≤ 4094) (heven : n % 2 = 0) : InfoText (List.replicate n 0x30#8) where
  length_le := by rw [List.length_replicate]; omega
  all_isHex := by
    intro c hc
    rw [List.eq_of_mem_replicate hc]
    rfl
  even := by rw [List.length_replicate, heven]

/-- Settles O43: a frame adds 18 bytes to its info text, and the longest even text has 4094 characters. -/
theorem frameLengthsAreBounded : Obligations.FrameLengthsAreBounded := by
  refine ⟨fun adr cmd t hle => ?_, fun adr cid2 t f s s' hexec hread => ?_, fun adr cid2 s => ?_⟩
  · rw [length_buildFrame]
    omega
  · obtain ⟨htext, rfl⟩ := eq_buildFrame_of_readOut hexec hread
    have hle := htext.length_le
    have heven := htext.even
    rw [length_buildFrame]
    omega
  · refine ⟨List.replicate 4094 0x30#8, _, _, exec_frameEnc_of_infoText adr cid2 s (infoText_replicate ?_ ?_), rfl, ?_⟩
    · decide
    · decide
    · rw [length_buildFrame, List.length_replicate]

/-- The two digits of a byte are an info text. -/
theorem infoText_hex2 (b : Byte) : InfoText (hex2 b) where
  length_le := by rw [length_hex2]; decide
  all_isHex := List.all_eq_true.mp (all_isHex_hex2 b)
  even := by rw [length_hex2]

/-- The info of a listed command is an info text: a stated one is the digits of a byte. -/
theorem infoText_statedInfo (c : Command) {hostInfo : Bytes} (h : InfoText hostInfo) :
    InfoText (c.statedInfo.getD hostInfo) := by
  cases c with
  | protocolVersion | manufacturerInfo | systemParameters | managementInfo | moduleSerialNumber => exact h
  | getValuesAllModules => exact infoText_hex2 0xFF#8
  | getValuesSingleModule m => exact infoText_hex2 m
  | serialNumberScanProbe m => exact infoText_hex2 m

/-- Settles O44: the codes are the definition's; each command's info is an info text, so its frame is answered. -/
theorem listedCommandsAreEncoded : Obligations.ListedCommandsAreEncoded := by
  refine ⟨⟨rfl, rfl⟩, ⟨rfl, rfl⟩, ⟨rfl, rfl⟩, ⟨rfl, rfl⟩, ⟨rfl, rfl⟩, ⟨rfl, rfl⟩, fun _ => ⟨rfl, rfl⟩,
    fun _ => ⟨rfl, rfl⟩, fun c adr hostInfo s hidle hle heven hhex => ?_⟩
  have htext : InfoText hostInfo := ⟨by omega, hhex, heven⟩
  exact transact_frameEnc adr c.cid2 hidle (infoText_statedInfo c htext)

end Sys2Proof.Machine
end

section
/-! PROOFS. FRAME_DEC accepts whole frames and only them, with any header values, and cannot see a change that keeps the byte sum
(42_frame.md R171, R174, R177). -/

namespace Sys2Proof.Machine

/-- A host that can read HDR after an operation reads it of a success. -/
theorem exists_payload_of_readHdr {i : Instr} {s t : State} {h : Hdr} (hexec : exec i s = .next t)
    (hread : t.readHdr = .ok h) : ∃ p, instrResult s.nInMax i = .ok p ∧ p.hdr = some h := by
  cases hres : instrResult s.nInMax i with
  | error e =>
    cases hexec.symm.trans (exec_of_error hres)
    cases hread
  | ok p =>
    cases hexec.symm.trans (exec_of_ok hres)
    refine ⟨p, rfl, ?_⟩
    cases hhdr : p.hdr with
    | none => simp [State.readHdr, okResponse, hhdr] at hread
    | some h' => simpa [State.readHdr, okResponse, hhdr] using hread

/-- A text that hexdec accepts is an even number of hex digits (41_hex_codec.md R142). -/
theorem isHex_of_hexdec {t b : Bytes} (h : hexdec t = .ok b) : t.length % 2 = 0 ∧ t.all isHex = true :=
  (hexPairs_isSome_iff t).mp (Option.isSome_of_eq_some ((hexdec_eq_ok_iff t b).mp h))

/-- The characters of an accepted frame's data are hex digits: the header decodes, and so does the info. -/
theorem all_isHex_of_dataDecResult {d : Bytes} {p : Payload} (h : dataDecResult d = .ok p) : d.all isHex = true := by
  obtain ⟨b, hdr, -, h12, hhdr, -, -, hb⟩ := dataDecResult_ok h
  have hlen : (seg d 0 12).length = 12 := length_seg_of_le (by omega)
  have hheader : (seg d 0 12).all isHex = true := (headerOf_isSome_iff hlen).mp (Option.isSome_of_eq_some hhdr)
  have hparts : seg d 0 12 ++ seg d 12 (d.length - 12) = d := by
    rw [seg_append_seg d 0 12, seg, List.drop_zero]
    exact List.take_of_length_le (by omega)
  rw [← hparts, List.all_append, hheader, (isHex_of_hexdec hb).2]
  rfl

/-- What stands between the delimiters. -/
theorem seg_delimited (m : Bytes) : seg (soi :: m ++ [eoi]) 1 m.length = m :=
  seg_append [soi] m [eoi] 1 m.length rfl rfl

theorem isHex_of_val4 {s : Bytes} {v : Word} (h : val4 s = some v) : ∀ c ∈ s, isHex c = true :=
  List.all_eq_true.mp ((val4_isSome_iff s).mp (Option.isSome_of_eq_some h)).2

/-- The header of accepted data: its length field stands at offset 8, is valid and counts the even number of info characters
(42_frame.md R170 steps 6 to 11). -/
theorem header_of_dataDecResult {d : Bytes} {p : Payload} {h : Hdr} (hdec : dataDecResult d = .ok p) (hh : p.hdr = some h) :
    val4 (seg d 8 4) = some h.lenf ∧ lchksum h.lenf = lchk (lenid h.lenf) ∧ d.length = 12 + (lenid h.lenf).toNat ∧
      d.length % 2 = 0 := by
  obtain ⟨b, hdr, rfl, h12, hheader, hvalid, hcount, hb⟩ := dataDecResult_ok hdec
  cases hh
  obtain ⟨-, -, -, -, hlenf⟩ := headerOf_eq_some hheader
  rw [seg_seg _ _ _ _ _ (by decide)] at hlenf
  have hinfo : (seg d 12 (d.length - 12)).length = d.length - 12 := length_seg_of_le (by omega)
  have heven : (d.length - 12) % 2 = 0 := hinfo ▸ (isHex_of_hexdec hb).1
  exact ⟨hlenf, hvalid, by omega, by omega⟩

/-- Settles O47: the accepted IN is its delimiters, its data and the data's checksum; the data has passed the checks from step 6
on. -/
theorem frameDecAcceptsOnlyWholeFrames : Obligations.FrameDecAcceptsOnlyWholeFrames := by
  intro a inp s t h hexec hread
  obtain ⟨p, hres, hhdr⟩ := exists_payload_of_readHdr hexec hread
  obtain ⟨d, ck, hinp, hck4, hck, hdata, hd, hckseg⟩ := frameDecResult_ok (checkInput_ok hres)
  obtain ⟨hlenf, hvalid, hcount, heven⟩ := header_of_dataDecResult hdata hhdr
  have hdelimited : inp = soi :: (d ++ ck) ++ [eoi] := hinp
  have hlen : inp.length = d.length + 6 := by simp [hinp, hck4]
  have hlast : inp.length - 1 = (soi :: (d ++ ck)).length := by simp [hck4, hlen]
  have hmid : inp.length - 2 = (d ++ ck).length := by simp [hck4, hlen]
  refine ⟨?_, ?_, ?_, by omega, hvalid, ?_, fun c hc => ?_, ?_⟩
  · rw [hdelimited]
    rfl
  · rw [hlast, hdelimited]
    exact List.getElem?_concat_length
  · change inp.length = 18 + (lenid h.lenf).toNat
    omega
  · rw [← hckseg, ← hd, hck]
  · rw [hmid, hdelimited, seg_delimited, List.mem_append] at hc
    rcases hc with hc | hc
    · exact List.all_eq_true.mp (all_isHex_of_dataDecResult hdata) c hc
    · exact isHex_of_val4 hck c hc
  · rwa [hd, seg_seg _ _ _ _ _ (by omega)] at hlenf

/-- The characters of any header with the right length field, and a decodable info text, are decoded: no step compares another
field with anything (42_frame.md R174). -/
theorem dataDecResult_headerText {h : Hdr} {t b : Bytes} (hle : t.length ≤ 4095)
    (hlenf : h.lenf = lenfield (BitVec.ofNat 12 t.length)) (hb : hexdec t = .ok b) :
    dataDecResult (headerText h ++ t) = .ok { out := some b, hdr := some h } := by
  have hlenid : lenid h.lenf = BitVec.ofNat 12 t.length := by rw [hlenf, lenid_lenfield]
  have hvalid : lchksum h.lenf = lchk (lenid h.lenf) := by rw [hlenid, hlenf, lchksum_lenfield]
  have hcount : t.length = (lenid h.lenf).toNat := by
    rw [hlenid, BitVec.toNat_ofNat]
    omega
  rw [dataDecResult_of_headerOf (length_headerText h) (headerOf_headerText h), infoDecResult_of_length_eq hvalid hcount, hb]
  rfl

/-- The wrapping of data, with its delimiters as numbers (30_encoding.md R71). -/
theorem wrapFrame_eq (d : Bytes) : wrapFrame d = [0x7E#8] ++ d ++ hex4 (chk16 d) ++ [0x0D#8] := rfl

/-- Settles O48: the data is a header's characters and the info text. -/
theorem frameDecReportsAnyFixedFields : Obligations.FrameDecReportsAnyFixedFields := by
  intro a ver adr cid1 cid2 t out s hle hb
  let h : Hdr := ⟨ver, adr, cid1, cid2, lenfield (BitVec.ofNat 12 t.length)⟩
  have hin : s.nInMax.admits (wrapFrame (headerText h ++ t)).length = true :=
    InLimit.admits_of_le _ (by rw [length_wrapFrame, List.length_append, length_headerText]; omega)
  have hdec : frameDecResult (wrapFrame (headerText h ++ t)) = .ok { out := some out, hdr := some h } :=
    (frameDecResult_wrapFrame _).trans (dataDecResult_headerText hle rfl hb)
  have hexec := exec_frameDec_of_ok a hin hdec
  rw [wrapFrame_eq] at hexec
  exact hexec

/-- One state holds one answer. -/
theorem State.answered_inj {s : State} {p p' : Response} (h : s.answered p = s.answered p') : p = p' :=
  Option.some_inj.mp (congrArg State.response h)

/-- An instruction answers an error's response exactly when the error is its result: an error's codes are its own. -/
theorem exec_eq_errResponse_iff (i : Instr) (s : State) (e : Err) :
    exec i s = .next (s.answered (errResponse e.status e.sub)) ↔ instrResult s.nInMax i = .error e := by
  refine ⟨fun h => ?_, exec_of_error⟩
  cases hres : instrResult s.nInMax i with
  | ok p =>
    have hp := State.answered_inj (Host.Outcome.next.inj ((exec_of_ok hres).symm.trans h))
    exact absurd (congrArg Response.status hp).symm e.status_ne_ok
  | error e' =>
    have he := State.answered_inj (Host.Outcome.next.inj ((exec_of_error hres).symm.trans h))
    exact congrArg Except.error (Err.codes_injective (congrArg Response.status he) (congrArg Response.sub he))

/-- Step 5 fails exactly on a checksum field with a value other than the data's checksum; no later step reports its error. -/
theorem frameDecResult_delimited_eq_mismatch_iff (d : Bytes) {ck : Bytes} (hck : ck.length = 4) :
    frameDecResult (soi :: d ++ ck ++ [eoi]) = .error (.checksumMismatch .frame) ↔ ∃ v, val4 ck = some v ∧ chk16 d ≠ v := by
  cases hv : val4 ck with
  | none =>
    rw [frameDecResult_delimited_of_none d hck hv]
    exact iff_of_false nofun nofun
  | some v =>
    by_cases hne : chk16 d = v
    · subst hne
      rw [frameDecResult_delimited_of_eq hv]
      refine iff_of_false (fun h => ?_) (by simp)
      simpa using dataDecResult_error h
    · exact iff_of_true (frameDecResult_delimited_of_ne hv hne) ⟨v, rfl, hne⟩

/-- What FRAME_DEC's frame checksum looks at: the checksum field, and the data by its checksum alone. -/
theorem exec_frameDec_eq_mismatch_iff (a : Word) {d ck : Bytes} {s : State} (hck : ck.length = 4)
    (hin : s.nInMax.admits (d.length + 6) = true) :
    exec (.frameDec a (soi :: d ++ ck ++ [eoi])) s = .next (s.answered (errResponse 2#3 1#4)) ↔
      ∃ v, val4 ck = some v ∧ chk16 d ≠ v := by
  have hlen : (soi :: d ++ ck ++ [eoi]).length = d.length + 6 := by simp [hck]
  rw [← frameDecResult_delimited_eq_mismatch_iff d hck, ← checkInput_of_admits (hlen ▸ hin) (frameDecResult _)]
  exact exec_eq_errResponse_iff (.frameDec a _) s (.checksumMismatch .frame)

/-- The data of an encoded frame with its address characters written out. -/
theorem frameData_join2 (x y : Nibble) (cmd : Byte) (t : Bytes) : frameData (join2 x y) cmd t =
    [0x32#8, 0x30#8, hexchar x, hexchar y] ++
      ([0x34#8, 0x36#8] ++ hex2 cmd ++ hex4 (lenfield (BitVec.ofNat 12 t.length)) ++ t) := by
  have hhex2 : hex2 (join2 x y) = [hexchar x, hexchar y] := by
    rw [hex2, (extract_join2 x y).1, (extract_join2 x y).2]
  have hdata : frameData (join2 x y) cmd t = headerText (encodedHdr (join2 x y) cmd t.length) ++ t :=
    frameData_eq (join2 x y) cmd t
  rw [hdata, headerText_encodedHdr, hhex2]
  simp

/-- Swapping two characters keeps the sum, so it keeps the checksum. -/
theorem chk16_swap (p s : Bytes) (c d : Byte) : chk16 (p ++ [c, d] ++ s) = chk16 (p ++ [d, c] ++ s) := by
  rw [chk16_eq_iff]
  simp only [byteSum_append, byteSum_cons, Nat.add_left_comm c.toNat]

/-- A frame with its two address characters swapped is the encoded frame of the swapped address, checksum field included. -/
theorem frame_swap_address (x y : Nibble) (cmd : Byte) (t : Bytes) :
    let rest := [0x34#8, 0x36#8] ++ hex2 cmd ++ hex4 (lenfield (BitVec.ofNat 12 t.length)) ++ t
    [0x7E#8] ++ ([0x32#8, 0x30#8, hexchar y, hexchar x] ++ rest) ++
      hex4 (chk16 ([0x32#8, 0x30#8, hexchar x, hexchar y] ++ rest)) ++ [0x0D#8] = buildFrame (join2 y x) cmd t := by
  intro rest
  have hchk : chk16 ([0x32#8, 0x30#8, hexchar x, hexchar y] ++ rest) = chk16 (frameData (join2 y x) cmd t) := by
    rw [frameData_join2]
    exact chk16_swap [0x32#8, 0x30#8] rest (hexchar x) (hexchar y)
  rw [buildFrame, wrapFrame_eq, hchk, frameData_join2]

/-- Settles O51: the checksum depends on the sum alone, which a swap keeps. -/
theorem sumKeepingChangesAreNotDetected : Obligations.SumKeepingChangesAreNotDetected := by
  refine ⟨fun a d d' ck s hck hlen hin hsum => ?_, ?_, fun l l' hsum => ?_⟩
  · have hchk : chk16 d = chk16 d' := (chk16_eq_iff d d').mpr hsum
    refine (exec_frameDec_eq_mismatch_iff a hck hin).trans ?_
    rw [hchk]
    exact (exec_frameDec_eq_mismatch_iff a hck (hlen ▸ hin)).symm
  · intro a x y cid2 t out s hle hb
    have hin : s.nInMax.admits (buildFrame (join2 y x) cid2 t).length = true :=
      InLimit.admits_of_le _ (by rw [length_buildFrame]; omega)
    have hexec := exec_frameDec_of_ok a hin (frameDecResult_buildFrame (join2 y x) cid2 hle hb)
    rw [← frame_swap_address] at hexec
    exact hexec
  · apply BitVec.eq_of_toNat_eq
    rw [toNat_lchk, toNat_lchk, hsum]

end Sys2Proof.Machine
end
